-- ==== Sys2Proof/Word.lean ====
section
/-! DEFINITION. The word types of U12: bytes in, 12-bit samples inside a triplet, 16-bit words out (R7, 00_scope.md). -/

namespace Sys2Proof

/-- A byte of SRC or CHUNK, and the command byte (R33, R34, R66). -/
abbrev Byte := BitVec 8

/-- A 12-bit sample as the packed stream holds it (R62). -/
abbrev Sample := BitVec 12

/-- A word of OUT: a sample promoted to 16 bits (R35, R63). -/
abbrev Word := BitVec 16

end Sys2Proof
end

