-- ==== Sys2Proof/Config.lean ====
section
/-! DEFINITION. What an implementation of U12 fixes: the open parameters of R8 (00_scope.md), and the free values of the
reads the spec calls unspecified. -/

namespace Sys2Proof

/-- The two readings the spec allows a model to take (43_control.md): in the big-step reading (R113) a `WR CMD` performs
the whole command, or, where the source of a DECODE is silent, as much of it as runs (log 28); in the micro-step reading
(R115) it starts the command, which then runs while the host goes on. -/
inductive Reading where
  | bigStep
  | microStep
  deriving DecidableEq, Repr

/-- The parameters R8 leaves open, and the reading. They are held in State so that every statement about a state holds
for every value of them; no step changes them. -/
structure Params where
  /-- LANES, an integer at least 1: triplets the kernel processes per step (R8, D25). -/
  lanes : Nat
  /-- CHUNK_CAP in bytes; `none` is the unbounded memory R36 and D14 allow a model to take. -/
  chunkCap : Option Nat
  /-- OUT_CAP in 16-bit words; `none` is unbounded. -/
  outCap : Option Nat
  /-- Which reading a `WR CMD` follows. -/
  reading : Reading
  deriving DecidableEq, Repr

/-- The defaults the table of open parameters in 92_eei_decisions.md names: one lane, unbounded memories.
DESIGN CHOICE (log 2, log 4): these values and the big-step reading at reset; unsafe for a claim that needs them. -/
def Params.default : Params where
  lanes := 1
  chunkCap := none
  outCap := none
  reading := .bigStep

/-- Free value: whether a read of a value that the running command writes, made while BUSY = 1, already shows the new value
or still the old one (R48, R143, U6, U7; log 11, safe). Applied to the number of such reads made so far. -/
opaque Config.freeChoice : Nat → Bool

end Sys2Proof
end

