-- ==== Sys2Proof/Syntax.lean ====
section
/-! DEFINITION. The syntax of U12: the instructions of spec/opcode_table.json, the registers, the host transactions and
the events of the environment. -/

namespace Sys2Proof

/-- The rows of spec/opcode_table.json: five commands (R67, 30_encoding.md) and the packed triplet, the data the kernel
consumes (R62). Commands have no operand fields (R66); a triplet has the two fields the table gives it. -/
inductive Instr where
  /-- 0x00 (R117). -/
  | nop
  /-- 0x01 (R101). -/
  | addr
  /-- 0x02 (R90). -/
  | unpack
  /-- 0x03 (R106). -/
  | decode
  /-- 0x04 (R118). -/
  | clear
  /-- The DATA24 row: `even` is E[11:0], `odd` is O[11:0] (R62). -/
  | triplet (even odd : Sample)
  deriving DecidableEq, Repr

/-- The two formats of the table: the command byte (R66) and the packed triplet (R62). -/
inductive Format where
  | cmd8
  | data24
  deriving DecidableEq, Repr

/-- The format an instruction is encoded in. -/
def Instr.format : Instr → Format
  | .nop => .cmd8
  | .addr => .cmd8
  | .unpack => .cmd8
  | .decode => .cmd8
  | .clear => .cmd8
  | .triplet _ _ => .data24

/-- The length of a format in bytes: one length of command (R66), three bytes of triplet (R62). -/
def Format.bytes : Format → Nat
  | .cmd8 => 1
  | .data24 => 3

/-- The twelve host-visible registers (R14, 10_state.md). -/
inductive Reg where
  | rows
  | columns
  | bitDepth
  | frameCount
  | frameIndex
  | dataLen
  | outLen
  | cmd
  | status
  | frameByteSize
  | seekOffset
  | srcLen
  deriving DecidableEq, Repr

/-- A host transaction (R69 to R72, 30_encoding.md), with the port values it drives: `h_reg` 4 bits, `h_wdata` 129 bits,
`cw_idx` and `or_idx` 65 bits, `cw_data` 8 bits (R41). -/
inductive Txn where
  /-- `WR r, v` (R69). -/
  | writeReg (r : BitVec 4) (v : BitVec 129)
  /-- `RD r` (R70). -/
  | readReg (r : BitVec 4)
  /-- `CW j, b` (R71). -/
  | chunkWrite (j : BitVec 65) (b : Byte)
  /-- `OR k` (R72). -/
  | outRead (k : BitVec 65)
  deriving DecidableEq, Repr

/-- What the outside world does to the block, one entry a step. -/
inductive Event where
  /-- A host transaction (R73: one at a time, in the order issued). -/
  | host (t : Txn)
  /-- The host does nothing and the sequencer makes one micro-step (R115). -/
  | tick
  /-- The environment presents another byte source of length `len` (R58); of the cells given, those below `len` exist. -/
  | setSource (len : BitVec 64) (cells : List (Nat × Byte))
  /-- The byte source begins (`true`) or ceases (`false`) to answer read requests (R149). -/
  | sourceAnswers (b : Bool)
  /-- Assertion of `rst` (R139). -/
  | reset
  deriving DecidableEq, Repr

/-- The kinds of script line (R74). -/
inductive LineKind where
  | W
  | R
  | C
  | O
  deriving DecidableEq, Repr

/-- A host-script line in its encoding `(kind, number, value)` (R74); a read line has value 0. -/
structure ScriptLine where
  kind : LineKind
  number : Nat
  value : Nat
  deriving DecidableEq, Repr

/-- The pseudo-transactions of R75. -/
inductive Pseudo where
  | geom (r c : BitVec 32)
  | loadChunk (bytes : List Byte)
  /-- `WAIT`, with the number of polls the host makes: one in the big-step reading (R75). -/
  | wait (polls : Nat)
  | run (c : Byte) (polls : Nat)
  | readout (m : Nat)
  deriving DecidableEq, Repr

end Sys2Proof
end

