-- ==== Sys2Proof/Decode.lean ====
section
/-! DEFINITION. Encodings (30_encoding.md): the packed triplet, the command byte, register numbers, host-script lines.
The decoder is total on any bytes and rejects by name; the encoder is written from the same tables. -/

namespace Sys2Proof

/-- Why the decoder refuses bytes. -/
inductive DecodeReject where
  /-- There is no byte to decode. -/
  | noBytes
  /-- A command byte of the reserved range 0x05 to 0xFF (R68); the host port answers it with IllegalCommand (R119). -/
  | reservedCommand (b : Byte)
  /-- Fewer than three bytes where a triplet is fetched. -/
  | shortTriplet
  deriving DecidableEq, Repr

/-- The result of decoding: an instruction and the bytes after it, or a rejection by name. -/
inductive Decoded where
  | instr (i : Instr) (rest : List Byte)
  | reject (r : DecodeReject)
  deriving DecidableEq, Repr

/-- The opcode map (R67): the match is on all eight bits. -/
def commandOfByte (b : Byte) : Option Instr :=
  if b = 0x00 then some .nop
  else if b = 0x01 then some .addr
  else if b = 0x02 then some .unpack
  else if b = 0x03 then some .decode
  else if b = 0x04 then some .clear
  else none

/-- E[11:0] of a triplet: E[11:4] = b0[7:0], E[3:0] = b1[7:4] (R62, R64). -/
def evenField (b0 b1 : Byte) : Sample := b0 ++ b1.extractLsb' 4 4

/-- O[11:0] of a triplet: O[11:8] = b1[3:0], O[7:0] = b2[7:0] (R62, R64). -/
def oddField (b1 b2 : Byte) : Sample := b1.extractLsb' 0 4 ++ b2

/-- Byte `b0` of the triplet that holds `even`: E11 to E4 (R62). -/
def tripletByte0 (even : Sample) : Byte := even.extractLsb' 4 8

/-- Byte `b1`: E3 to E0 in the high nibble, O11 to O8 in the low nibble (R62). -/
def tripletByte1 (even odd : Sample) : Byte := even.extractLsb' 0 4 ++ odd.extractLsb' 8 4

/-- Byte `b2`: O7 to O0 (R62). -/
def tripletByte2 (odd : Sample) : Byte := odd.extractLsb' 0 8

/-- The decoder: one instruction of the given format from the front of the bytes. -/
def decode : Format → List Byte → Decoded
  | .cmd8, [] => .reject .noBytes
  | .cmd8, b :: rest =>
    match commandOfByte b with
    | some i => .instr i rest
    | none => .reject (.reservedCommand b)
  | .data24, [] => .reject .noBytes
  | .data24, b0 :: b1 :: b2 :: rest => .instr (.triplet (evenField b0 b1) (oddField b1 b2)) rest
  | .data24, _ => .reject .shortTriplet

/-- The encoder: the bytes of an instruction, lowest index first. -/
def encode : Instr → List Byte
  | .nop => [0x00]
  | .addr => [0x01]
  | .unpack => [0x02]
  | .decode => [0x03]
  | .clear => [0x04]
  | .triplet even odd => [tripletByte0 even, tripletByte1 even odd, tripletByte2 odd]

/-- The format of a row of spec/opcode_table.json with `nbits` bits. -/
def formatOfBits (nbits : Nat) : Format := if nbits ≤ 8 then .cmd8 else .data24

/-- The bytes of a table row's word `w`, lowest index first. A command is one byte; a triplet is one 24-bit word read
with `b0` as its most significant byte, as the table numbers E (bits 23:12) and O (bits 11:0) (R43; log 1). -/
def tableBytes (nbits w : Nat) : List Byte :=
  match formatOfBits nbits with
  | .cmd8 => [BitVec.ofNat 8 w]
  | .data24 => [BitVec.ofNat 8 (w / 65536), BitVec.ofNat 8 (w / 256), BitVec.ofNat 8 w]

/-- The instruction the decoder reads from a word numbered as the opcode table numbers it. -/
def decodeTableWord (nbits w : Nat) : Option Instr :=
  match decode (formatOfBits nbits) (tableBytes nbits w) with
  | .instr i _ => some i
  | .reject _ => none

/-- The width of a register in bits (R14). -/
def Reg.width : Reg → Nat
  | .rows => 32
  | .columns => 32
  | .bitDepth => 32
  | .frameCount => 32
  | .frameIndex => 64
  | .dataLen => 65
  | .outLen => 65
  | .cmd => 8
  | .status => 8
  | .frameByteSize => 65
  | .seekOffset => 129
  | .srcLen => 64

/-- The number of a register (R14). -/
def numberOfReg : Reg → BitVec 4
  | .rows => 0x0
  | .columns => 0x1
  | .bitDepth => 0x2
  | .frameCount => 0x3
  | .frameIndex => 0x4
  | .dataLen => 0x5
  | .outLen => 0x6
  | .cmd => 0x7
  | .status => 0x8
  | .frameByteSize => 0x9
  | .seekOffset => 0xA
  | .srcLen => 0xB

/-- The register a number names; 0xC to 0xF are reserved and name none (R14, R29). -/
def regOfNumber (r : BitVec 4) : Option Reg :=
  if r = 0x0 then some .rows
  else if r = 0x1 then some .columns
  else if r = 0x2 then some .bitDepth
  else if r = 0x3 then some .frameCount
  else if r = 0x4 then some .frameIndex
  else if r = 0x5 then some .dataLen
  else if r = 0x6 then some .outLen
  else if r = 0x7 then some .cmd
  else if r = 0x8 then some .status
  else if r = 0x9 then some .frameByteSize
  else if r = 0xA then some .seekOffset
  else if r = 0xB then some .srcLen
  else none

/-- The script line of a transaction (R74). -/
def encodeTxn : Txn → ScriptLine
  | .writeReg r v => ⟨.W, r.toNat, v.toNat⟩
  | .readReg r => ⟨.R, r.toNat, 0⟩
  | .chunkWrite j b => ⟨.C, j.toNat, b.toNat⟩
  | .outRead k => ⟨.O, k.toNat, 0⟩

/-- The transaction a script line stands for; a number or value that does not fit its port names none (R41, R74). -/
def decodeTxn (l : ScriptLine) : Option Txn :=
  match l.kind with
  | .W => if l.number < 2 ^ 4 ∧ l.value < 2 ^ 129 then some (.writeReg (BitVec.ofNat 4 l.number) (BitVec.ofNat 129 l.value)) else none
  | .R => if l.number < 2 ^ 4 ∧ l.value = 0 then some (.readReg (BitVec.ofNat 4 l.number)) else none
  | .C => if l.number < 2 ^ 65 ∧ l.value < 2 ^ 8 then some (.chunkWrite (BitVec.ofNat 65 l.number) (BitVec.ofNat 8 l.value)) else none
  | .O => if l.number < 2 ^ 65 ∧ l.value = 0 then some (.outRead (BitVec.ofNat 65 l.number)) else none

/-- A write of `v` to a named register as a transaction. -/
def writeOf (r : Reg) (v : Nat) : Event := .host (.writeReg (numberOfReg r) (BitVec.ofNat 129 v))

/-- The chunk writes `CW j, b_0 ; CW j+1, b_1 ; ...` of R75. -/
def chunkWritesFrom : Nat → List Byte → List Event
  | _, [] => []
  | j, b :: rest => .host (.chunkWrite (BitVec.ofNat 65 j) b) :: chunkWritesFrom (j + 1) rest

/-- `polls` reads of STATUS, the sequencer moving after each (R75). -/
def pollsOf : Nat → List Event
  | 0 => []
  | n + 1 => .host (.readReg (numberOfReg .status)) :: .tick :: pollsOf n

/-- `WAIT` with a number of polls: the last read is the result (R75; log 26). -/
def waitOf : Nat → List Event
  | 0 => []
  | n + 1 => pollsOf n ++ [.host (.readReg (numberOfReg .status))]

/-- The out-reads `OR 0 ; ... ; OR m-1` of R75. -/
def readoutOf (m : Nat) : List Event := (List.range m).map fun k => .host (.outRead (BitVec.ofNat 65 k))

/-- The expansion of a pseudo-transaction (R75). -/
def expandPseudo : Pseudo → List Event
  | .geom r c => [writeOf .rows r.toNat, writeOf .columns c.toNat, writeOf .bitDepth 12]
  | .loadChunk bytes => chunkWritesFrom 0 bytes ++ [writeOf .dataLen bytes.length]
  | .wait polls => waitOf polls
  | .run c polls => writeOf .cmd c.toNat :: waitOf polls
  | .readout m => readoutOf m

end Sys2Proof
end

