-- ==== Sys2Proof/WellFormed.lean ====
section
/-! DEFINITION. Well-formedness of the syntax, as Bools. -/

namespace Sys2Proof

/-- Every instruction is well-formed: a command has no operand (R66), every 24-bit triplet is legal (R62), and the types of
`triplet`'s fields bound them. -/
def Instr.wellFormed : Instr → Bool
  | .nop => true
  | .addr => true
  | .unpack => true
  | .decode => true
  | .clear => true
  | .triplet _ _ => true

/-- A register write carries exactly as many bits as the register is wide (R15); every other transaction is bounded by the
widths of its ports. A write to a reserved number carries nothing the block looks at (R29). -/
def Txn.wellFormed : Txn → Bool
  | .writeReg r v =>
    match regOfNumber r with
    | some g => decide (v.toNat < 2 ^ g.width)
    | none => true
  | .readReg _ => true
  | .chunkWrite _ _ => true
  | .outRead _ => true

/-- A source's cells lie below its length (R33, R51). -/
def Event.wellFormed : Event → Bool
  | .host t => t.wellFormed
  | .tick => true
  | .setSource len cells => cells.all fun c => decide (c.1 < len.toNat)
  | .sourceAnswers _ => true
  | .reset => true

/-- LANES is at least 1 (R8). -/
def Params.wellFormed (p : Params) : Bool := decide (1 ≤ p.lanes)

end Sys2Proof
end

