-- ==== Sys2Proof/Machine/State.lean ====
section
/-! DEFINITION. The state of U12 as plain data (R13, 10_state.md), the reasons a step stops, and the state after reset. -/

namespace Sys2Proof.Machine

/-- A memory: its defined cells as (index, contents), indices strictly rising. An unlisted cell holds no value (R37; log 5). -/
abbrev Memory (w : Nat) := List (Nat × BitVec w)

/-- STATUS (R24). Bit 3 reads 0 and is never produced, so it has no storage (U13; log 20). -/
structure Status where
  /-- Bit 0: a command is running. -/
  busy : Bool
  /-- Bit 1: the most recent command other than NOP and CLEAR has ended. -/
  done : Bool
  /-- Bit 2: it ended with an error. -/
  err : Bool
  /-- Bits 7:4: which error. -/
  errCode : BitVec 4
  deriving DecidableEq, Repr

/-- The four error kinds (R122 to R125, 60_exceptions.md). -/
inductive ErrorKind where
  | precondition
  | shortRead
  | unsupportedFormat
  | illegalCommand
  deriving DecidableEq, Repr

/-- The command being performed: `OP` of R39. -/
inductive Op where
  | addr
  | unpack
  | decode
  deriving DecidableEq, Repr

/-- The registers of one kernel lane: three bytes in, two words out (R39). -/
structure Lane where
  b0 : Byte
  b1 : Byte
  b2 : Byte
  even : Word
  odd : Word
  deriving DecidableEq, Repr

/-- What the host could read of a command's results when the command was accepted: the model's own record of the old values
that R48, R143 and U6 speak of (log 11). No rule of the command reads it; only a host's read while BUSY = 1 does. -/
structure Before where
  dataLen : BitVec 65
  outLen : BitVec 65
  frameByteSize : BitVec 65
  seekOffset : BitVec 129
  out : Memory 16
  deriving DecidableEq, Repr

/-- The hidden state of a running command (R39). The latches and counters are naturals; that each fits the width R39 gives
is an invariant (`RunningFits` of Safety.lean). While UNPACK runs `fbsL`, `seekL` and `lj` have no value in the spec, and
`ti` has none in LOAD: DESIGN CHOICE 0 (log 14), read by no rule. -/
structure Running where
  op : Op
  /-- `fbs_l`, 65 bits: the latched frame byte size. -/
  fbsL : Nat
  /-- `seek_l`, 129 bits: the latched seek offset. -/
  seekL : Nat
  /-- `n_l`, 64 bits: the latched triplet count. -/
  nL : Nat
  /-- `m_l`, 65 bits: the latched output length. -/
  mL : Nat
  /-- `LJ`, 65 bits: bytes copied so far. -/
  lj : Nat
  /-- `TI`, 64 bits: the first triplet not yet unpacked (R30). -/
  ti : Nat
  /-- The lane registers of the kernel step last taken (log 15). -/
  laneRegs : List Lane
  /-- The model's own: the old values of what the command writes (log 11). -/
  before : Before
  deriving DecidableEq, Repr

/-- The sequencer: `PHASE` with the hidden state that exists in that phase (R39, R115). -/
inductive Sequencer where
  | idle
  | load (r : Running)
  | run (r : Running)
  deriving DecidableEq, Repr

/-- The state of one block, its inputs and outputs, and what the outside world does next. -/
structure State where
  /-- `ROWS` (R16). -/
  rows : BitVec 32
  /-- `COLUMNS` (R17). -/
  columns : BitVec 32
  /-- `BIT_DEPTH` (R18). -/
  bitDepth : BitVec 32
  /-- `FRAME_COUNT` (R19). -/
  frameCount : BitVec 32
  /-- `FRAME_INDEX` (R20). -/
  frameIndex : BitVec 64
  /-- `DATA_LEN` (R21). -/
  dataLen : BitVec 65
  /-- `OUT_LEN` (R22). -/
  outLen : BitVec 65
  /-- `STATUS` (R24). -/
  status : Status
  /-- `FRAME_BYTE_SIZE` (R26). -/
  frameByteSize : BitVec 65
  /-- `SEEK_OFFSET` (R27). -/
  seekOffset : BitVec 129
  /-- CHUNK (R34). -/
  chunk : Memory 8
  /-- OUT (R35). -/
  out : Memory 16
  /-- The sequencer's hidden state (R39). -/
  seq : Sequencer
  /-- The input port `src_len`, which `SRC_LEN` mirrors (R28). -/
  srcLen : BitVec 64
  /-- SRC, outside the block and read-only to it (R33). -/
  src : Memory 8
  /-- Whether the byte source answers read requests (R149). -/
  srcAck : Bool
  /-- The port `h_rdata`: the value the last `RD` returned (R41, R70). -/
  hRdata : BitVec 129
  /-- The port `or_data`: the word the last `OR` returned (R41, R72). -/
  orData : Word
  /-- The open parameters (R8). -/
  params : Params
  /-- The model's own: what the host and the environment do next, first entry first (log 3). -/
  agenda : List Event
  /-- The model's own: how many free values have been drawn (log 11). -/
  freeCount : Nat
  deriving DecidableEq, Repr

/-- Why the machine stops with a fault: nothing makes it stop so, and the type has no constructor. "The block never halts,
hangs or resets on an error" (R121): a command that fails ends in a next state with the error in STATUS (R129), and a source
that does not answer leaves the block waiting in LOAD, from which a reset still frees it (R149; log 8). -/
inductive Fault where
  deriving DecidableEq, Repr

/-- Why the model gives no meaning. Every one but `notModelled` is a refusal the spec asks for; each is safe. -/
inductive Refusal where
  /-- An instruction without a meaning yet: no arm of exec uses it. Safe. -/
  | notModelled (mnemonic : String)
  /-- Raised by UNPACK and the kernel step: a CHUNK cell to be read was never written since reset (R37, R90, U4). Safe (log 5). -/
  | undefinedChunkCell
  /-- Raised by `OR k`: OUT[k] was never written since reset (R37, U4, 90_conflicts.md C10); while a command runs, where the
  read finds the old contents and there are none (log 25). Safe (log 5). -/
  | undefinedOutCell
  /-- Raised by UNPACK, DECODE and `CW`: more than CHUNK_CAP bytes are needed (R36, R71, U5). Safe (log 6). -/
  | chunkCapacityExceeded
  /-- Raised by UNPACK, DECODE and `OR`: more than OUT_CAP words are needed (R36, R72, U5). Safe (log 6). -/
  | outCapacityExceeded
  /-- Raised by DECODE: the source does not hold a byte below the length it promised (R49, U14). Safe (log 9). -/
  | sourceContradictsLength
  /-- Raised by the environment's change of SRC or `src_len` while a command runs (R58, R145, U8). Safe (log 10). -/
  | sourceChangedWhileBusy
  deriving DecidableEq, Repr

/-- The outcome of one step of this machine. -/
abbrev Outcome := Host.Outcome State Fault Refusal

/-- STATUS = 0x00. -/
def Status.reset : Status where
  busy := false
  done := false
  err := false
  errCode := 0

/-- The block right after reset (R42), with no byte source attached, nothing read yet and nothing on the agenda.
DESIGN CHOICE: `srcLen`, `src`, `srcAck` (log 7), `hRdata`, `orData` (log 12), `params` (log 2, log 4), `agenda` (log 3),
`freeCount` (log 11). -/
def State.reset : State where
  rows := 0
  columns := 0
  bitDepth := 0
  frameCount := 0
  frameIndex := 0
  dataLen := 0
  outLen := 0
  status := Status.reset
  frameByteSize := 0
  seekOffset := 0
  chunk := []
  out := []
  seq := .idle
  srcLen := 0
  src := []
  srcAck := true
  hRdata := 0
  orData := 0
  params := Params.default
  agenda := []
  freeCount := 0

end Sys2Proof.Machine
end

