-- ==== Sys2Proof/Machine/Flags.lean ====
section
/-! DEFINITION. Every flag computation of STATUS (R24, R31): acceptance, completion, error. -/

namespace Sys2Proof.Machine

/-- The code of an error kind (R122 to R125). -/
def errorCode : ErrorKind → BitVec 4
  | .precondition => 1
  | .shortRead => 2
  | .unsupportedFormat => 3
  | .illegalCommand => 4

/-- STATUS as the byte `RD STATUS` returns (R24): ERR_CODE in bits 7:4, bit 3 zero, ERR, DONE, BUSY. -/
def statusByte (st : Status) : Byte :=
  st.errCode ++ (0 : BitVec 1) ++ BitVec.ofBool st.err ++ BitVec.ofBool st.done ++ BitVec.ofBool st.busy

/-- The clearing of DONE, ERR and ERR_CODE at the acceptance of every command other than NOP (R111, R118). -/
def statusForgotten (st : Status) : Status := { st with done := false, err := false, errCode := 0 }

/-- Acceptance of ADDR, UNPACK or DECODE: the previous outcome is forgotten and BUSY is set (R111). -/
def statusAccepted (st : Status) : Status := { statusForgotten st with busy := true }

/-- `done()`: BUSY cleared, DONE set, ERR and ERR_CODE as the acceptance left them (R112). -/
def statusDone (st : Status) : Status := { st with busy := false, done := true }

/-- `raise E`: BUSY cleared, DONE and ERR set, ERR_CODE the code of E (R129). -/
def statusError (e : ErrorKind) : Status where
  busy := false
  done := true
  err := true
  errCode := errorCode e

end Sys2Proof.Machine
end

