-- ==== Sys2Proof/Machine/Operands.lean ====
section
/-! DEFINITION. The operands of the commands: the per-triplet unpack function (40_unpack.md), the kernel's preconditions,
and the frame-addressing adder (41_addressing.md). Arithmetic is exact on naturals (R98). -/

namespace Sys2Proof.Machine

/-- `sample_even` of R76; the bytes are widened before the shifts. -/
def sampleEven (b0 b1 : Byte) : Word := (b0.setWidth 16 <<< 4) ||| (b1.setWidth 16 >>> 4)

/-- `sample_odd` of R76. -/
def sampleOdd (b1 b2 : Byte) : Word := ((b1.setWidth 16 &&& 0x000F) <<< 8) ||| b2.setWidth 16

/-- The word a 12-bit sample is stored as: zero-extended (R63). -/
def wordOfSample (v : Sample) : Word := v.setWidth 16

/-- The kernel's precondition on DATA_LEN and OUT_LEN (R82). -/
def kernelOk (l m : Nat) : Bool := decide (l % 3 = 0 ∧ m = l / 3 * 2)

/-- The frame the adder addresses: N = rows*columns, F = frame_byte_size, S = seek_offset. -/
structure FrameRange where
  pixels : Nat
  bytes : Nat
  offset : Nat
  deriving DecidableEq, Repr

/-- N = ROWS * COLUMNS (R93). -/
def pixelCount (s : State) : Nat := s.rows.toNat * s.columns.toNat

/-- frame_byte_size = (N * 3) div 2 (R95). -/
def frameBytes (n : Nat) : Nat := n * 3 / 2

/-- seek_offset = frame_byte_size * FRAME_INDEX (R96). -/
def seekOf (f : Nat) (s : State) : Nat := f * s.frameIndex.toNat

/-- src_addr(j) = seek_offset + j (R99). -/
def srcAddr (offset j : Nat) : Nat := offset + j

/-- The adder: its checks in the order of R127 (format R92, evenness R94, range R97) and its results. -/
def frameRange (s : State) : Except ErrorKind FrameRange :=
  if s.bitDepth ≠ 12 then .error .unsupportedFormat
  else if pixelCount s % 2 ≠ 0 then .error .precondition
  else if seekOf (frameBytes (pixelCount s)) s + frameBytes (pixelCount s) > s.srcLen.toNat then .error .shortRead
  else .ok
    { pixels := pixelCount s
      bytes := frameBytes (pixelCount s)
      offset := seekOf (frameBytes (pixelCount s)) s }

/-- Whether `n` cells fit a capacity; an absent capacity is unbounded (R36). -/
def fits (cap : Option Nat) (n : Nat) : Bool :=
  match cap with
  | none => true
  | some c => decide (n ≤ c)

end Sys2Proof.Machine
end

