-- ==== Sys2Proof/Machine/Ops.lean ====
section
/-! DEFINITION. The operations the meanings share: memories, registers, acceptance and completion of a command, and
`raiseError`, the one way an error is taken (R129). -/

namespace Sys2Proof.Machine

/-- The contents of a cell; `none` where it holds no value (R37). -/
def Memory.read {w : Nat} : Memory w → Nat → Option (BitVec w)
  | [], _ => none
  | (b, u) :: m, a => if a = b then some u else Memory.read m a

/-- A write of one cell, keeping the list canonical. -/
def Memory.write {w : Nat} : Memory w → Nat → BitVec w → Memory w
  | [], a, v => [(a, v)]
  | (b, u) :: m, a, v =>
    if a < b then (a, v) :: (b, u) :: m
    else if a = b then (a, v) :: m
    else (b, u) :: Memory.write m a v

/-- The canonical form: indices strictly rising. An unlisted cell reads as no value, so no entry equals it. -/
def Memory.wf {w : Nat} : Memory w → Bool
  | [] => true
  | (a, _) :: m => (m.all fun c => decide (a < c.1)) && Memory.wf m

/-- The canonical memory that holds the given cells below `bound`, a later one winning. -/
def Memory.ofCells {w : Nat} (bound : Nat) (cells : List (Nat × BitVec w)) : Memory w :=
  (cells.filter fun c => decide (c.1 < bound)).foldl (fun m c => Memory.write m c.1 c.2) []

/-- One step after another. -/
def andThen (o : Outcome) (k : State → Outcome) : Outcome :=
  match o with
  | .next s => k s
  | .fault r => .fault r
  | .refused r => .refused r

/-- The previous outcome is forgotten (R111, R118). -/
def forgetOutcome (s : State) : State := { s with status := statusForgotten s.status }

/-- Acceptance of ADDR, UNPACK or DECODE (R111). -/
def accept (s : State) : State := { s with status := statusAccepted s.status }

/-- `done()` (R112): the sequencer returns to IDLE and its hidden state loses its values. -/
def finish (s : State) : State := { s with status := statusDone s.status, seq := .idle }

/-- `raise E` (R129): STATUS reports the error, the sequencer returns to IDLE, nothing else changes. -/
def raiseError (e : ErrorKind) (s : State) : State := { s with status := statusError e, seq := .idle }

/-- `FRAME_BYTE_SIZE <- F ; SEEK_OFFSET <- S` (R101, R106). -/
def setFrameRegs (f : FrameRange) (s : State) : State :=
  { s with frameByteSize := BitVec.ofNat 65 f.bytes, seekOffset := BitVec.ofNat 129 f.offset }

/-- `DATA_LEN <- l ; OUT_LEN <- m` (R105). -/
def setLengths (l m : Nat) (s : State) : State :=
  { s with dataLen := BitVec.ofNat 65 l, outLen := BitVec.ofNat 65 m }

/-- The three bytes of triplet `i` (R65, R83); `none` where one of the cells is undefined. -/
def tripletAt (chunk : Memory 8) (i : Nat) : Option (Byte × Byte × Byte) :=
  match chunk.read (3 * i), chunk.read (3 * i + 1), chunk.read (3 * i + 2) with
  | some b0, some b1, some b2 => some (b0, b1, b2)
  | _, _, _ => none

/-- `OUT[2*i] <- even ; OUT[2*i+1] <- odd` (R83). -/
def writePair (out : Memory 16) (i : Nat) (even odd : Word) : Memory 16 :=
  (out.write (2 * i) even).write (2 * i + 1) odd

/-- One iteration of the kernel's loop (R83); `none` where it would read an undefined cell. -/
def unpackOne (chunk : Memory 8) (i : Nat) (out : Memory 16) : Option (Memory 16) :=
  match tripletAt chunk i with
  | none => none
  | some (b0, b1, b2) => some (writePair out i (sampleEven b0 b1) (sampleOdd b1 b2))

/-- The iterations `i, i+1, ..., i+n-1` of the kernel's loop, in this order (log 17; R87 makes every order equal). -/
def unpackRange (chunk : Memory 8) : Nat → Nat → Memory 16 → Option (Memory 16)
  | 0, _, out => some out
  | n + 1, i, out =>
    match unpackOne chunk i out with
    | none => none
    | some out' => unpackRange chunk n (i + 1) out'

/-- The iterations named by a list, in the list's order (R87). -/
def unpackList (chunk : Memory 8) : List Nat → Memory 16 → Option (Memory 16)
  | [], out => some out
  | i :: is, out =>
    match unpackOne chunk i out with
    | none => none
    | some out' => unpackList chunk is out'

/-- `CHUNK[j] <- SRC[offset + j]` for `n` bytes from `j` on (R104); `none` where the source lacks a byte. -/
def loadRange (src : Memory 8) (offset : Nat) : Nat → Nat → Memory 8 → Option (Memory 8)
  | 0, _, chunk => some chunk
  | n + 1, j, chunk =>
    match src.read (srcAddr offset j) with
    | none => none
    | some b => loadRange src offset n (j + 1) (chunk.write j b)

/-- `sample(k)` of R87: the word the kernel writes at OUT[k]. -/
def sampleOf (chunk : Memory 8) (k : Nat) : Option Word :=
  match tripletAt chunk (k / 2) with
  | none => none
  | some (b0, b1, b2) => if k % 2 = 0 then some (sampleEven b0 b1) else some (sampleOdd b1 b2)

/-- The row-major view `FRAME(r, c) = OUT[r*COLUMNS + c]` (R38). -/
def framePixel (s : State) (r c : Nat) : Option Word := s.out.read (r * s.columns.toNat + c)

/-- The record of the command that runs, if one does. -/
def runningOf (s : State) : Option Running :=
  match s.seq with
  | .idle => none
  | .load r => some r
  | .run r => some r

/-- The old values of a command accepted in this state (log 11). -/
def beforeOf (s : State) : Before where
  dataLen := s.dataLen
  outLen := s.outLen
  frameByteSize := s.frameByteSize
  seekOffset := s.seekOffset
  out := s.out

/-- Acceptance of a DECODE that passed its checks and has bytes to read: the latches, FRAME_BYTE_SIZE and SEEK_OFFSET, to
LOAD (R115). -/
def enterLoad (f : FrameRange) (s : State) : State :=
  { setFrameRegs f (accept s) with
    seq := .load
      { op := .decode, fbsL := f.bytes, seekL := f.offset, nL := f.bytes / 3, mL := f.pixels,
        lj := 0, ti := 0, laneRegs := [], before := beforeOf s } }

/-- The four registers DECODE writes, put back to their old values. -/
def restoreRegs (b : Before) (s : State) : State :=
  { s with dataLen := b.dataLen, outLen := b.outLen, frameByteSize := b.frameByteSize, seekOffset := b.seekOffset }

/-- The sample the kernel of a DECODE writes at OUT[k], from the bytes of the source (R107); `none` where one is missing. -/
def sourceSample (src : Memory 8) (offset k : Nat) : Option Word :=
  match src.read (srcAddr offset (3 * (k / 2))), src.read (srcAddr offset (3 * (k / 2) + 1)),
      src.read (srcAddr offset (3 * (k / 2) + 2)) with
  | some b0, some b1, some b2 => if k % 2 = 0 then some (sampleEven b0 b1) else some (sampleOdd b1 b2)
  | _, _, _ => none

/-- OUT[k] as it was when the running command was accepted; a word the command does not write is as it is. -/
def wordBefore (s : State) (k : Nat) : Option Word :=
  match runningOf s with
  | none => s.out.read k
  | some r => if k < r.mL then r.before.out.read k else s.out.read k

/-- OUT[k] once the running command has written it; a word the command does not write is as it is. The load may be overlapped
by the kernel (R104), so in LOAD too. -/
def wordAfter (s : State) (k : Nat) : Option Word :=
  match s.seq with
  | .idle => s.out.read k
  | .load r => if k < r.mL then sourceSample s.src r.seekL k else s.out.read k
  | .run r => if k < r.mL then sampleOf s.chunk k else s.out.read k

/-- OUT[k] as a host's read finds it while a command runs: whole (R48), new if its triplet has been unpacked by then and old
otherwise, in an order the spec leaves open (R54, R143, U7; log 11). -/
def wordWhileBusy (s : State) (k : Nat) : Option Word :=
  if Config.freeChoice s.freeCount then (wordAfter s k).or (wordBefore s k) else wordBefore s k

/-- A register as `RD` returns it while the block is idle, zero-extended to 129 bits (R70). `CMD` reads 0 (R23). -/
def readReg (s : State) : Reg → BitVec 129
  | .rows => s.rows.setWidth 129
  | .columns => s.columns.setWidth 129
  | .bitDepth => s.bitDepth.setWidth 129
  | .frameCount => s.frameCount.setWidth 129
  | .frameIndex => s.frameIndex.setWidth 129
  | .dataLen => s.dataLen.setWidth 129
  | .outLen => s.outLen.setWidth 129
  | .cmd => 0
  | .status => (statusByte s.status).setWidth 129
  | .frameByteSize => s.frameByteSize.setWidth 129
  | .seekOffset => s.seekOffset
  | .srcLen => s.srcLen.setWidth 129

/-- A write of a storage register by the host: a read/write register takes the bits of its width (R69, R15; log 13), a
read-only register keeps its value (R15). A write to `CMD` stores nothing (R23): the command it presents is performed by
the host port. -/
def writeReg (s : State) (v : BitVec 129) : Reg → State
  | .rows => { s with rows := v.setWidth 32 }
  | .columns => { s with columns := v.setWidth 32 }
  | .bitDepth => { s with bitDepth := v.setWidth 32 }
  | .frameCount => { s with frameCount := v.setWidth 32 }
  | .frameIndex => { s with frameIndex := v.setWidth 64 }
  | .dataLen => { s with dataLen := v.setWidth 65 }
  | .outLen => { s with outLen := v.setWidth 65 }
  | .cmd => s
  | .status => s
  | .frameByteSize => s
  | .seekOffset => s
  | .srcLen => s

/-- A register as it was when the running command was accepted. -/
def regBefore (s : State) (g : Reg) : BitVec 129 :=
  match runningOf s with
  | none => readReg s g
  | some r => readReg (restoreRegs r.before s) g

/-- A register once the running command has written it (R105, R106); UNPACK writes none. -/
def regAfter (s : State) (g : Reg) : BitVec 129 :=
  match runningOf s with
  | none => readReg s g
  | some r =>
    match r.op with
    | .decode => readReg (setLengths r.fbsL r.mL (setFrameRegs { pixels := r.mL, bytes := r.fbsL, offset := r.seekL } s)) g
    | .unpack => readReg s g
    | .addr => readReg s g

/-- A register that a running command may write, as a host's read finds it: whole (R15), the old or the new value (R143, U6;
log 11). -/
def regWhileBusy (s : State) (g : Reg) : BitVec 129 :=
  if Config.freeChoice s.freeCount then regAfter s g else regBefore s g

/-- The port `busy` (R41). -/
def portBusy (s : State) : Bool := s.status.busy

/-- The port `done` (R41). -/
def portDone (s : State) : Bool := s.status.done

/-- The port `err` (R41). -/
def portErr (s : State) : Bool := s.status.err

/-- The port `err_code` (R41). -/
def portErrCode (s : State) : BitVec 4 := s.status.errCode

/-- The ports `s_req` and `s_addr`: in LOAD the byte at seek_l + LJ is requested (R41, R99, R115). -/
def portRequest (s : State) : Option (BitVec 64) :=
  match s.seq with
  | .load r => some (BitVec.ofNat 64 (srcAddr r.seekL r.lj))
  | .run _ => none
  | .idle => none

end Sys2Proof.Machine
end

