-- ==== Sys2Proof/Machine/Addressing.lean ====
section
/-! DEFINITION. ADDR, the frame-addressing adder alone (41_addressing.md). -/

namespace Sys2Proof.Machine

/-- ADDR (R101): the checks and the computation; on success FRAME_BYTE_SIZE and SEEK_OFFSET are written. -/
def execAddr (s : State) : Outcome :=
  if s.status.busy then .next s
  else
    match frameRange s with
    | .error e => .next (raiseError e (accept s))
    | .ok f => .next (finish (setFrameRegs f (accept s)))

end Sys2Proof.Machine
end

