-- ==== Sys2Proof/Machine/Control.lean ====
section
/-! DEFINITION. NOP and CLEAR (43_control.md). A command given while BUSY = 1 is dropped (R111; log 27). -/

namespace Sys2Proof.Machine

/-- NOP (R117): no state change, whether or not the block is busy. -/
def execNop (s : State) : Outcome := .next s

/-- CLEAR (R118): the outcome of the last command is forgotten. -/
def execClear (s : State) : Outcome :=
  if s.status.busy then .next s else .next (forgetOutcome s)

end Sys2Proof.Machine
end

