-- ==== Sys2Proof/Machine/Frame.lean ====
section
/-! DEFINITION. DECODE, one frame from the byte source to samples (42_decode.md). -/

namespace Sys2Proof.Machine

/-- DECODE (R106) from acceptance to completion (R113). All checks come before all writes (R128). A failing DECODE needs no
capacity; a frame larger than a capacity is outside the model (R36; log 6). With bytes to read and a source that does not
answer there is no completion to go to: the command is accepted and the block waits in LOAD, busy (R149, R115; log 8), until
the source answers and the sequencer moves on. A source that lacks a promised byte is refused (U14; log 9). DESIGN CHOICE (log
28): a source that answers at acceptance is taken to answer throughout the command. -/
def execDecode (s : State) : Outcome :=
  if s.status.busy then .next s
  else
    match frameRange s with
    | .error e => .next (raiseError e (accept s))
    | .ok f =>
      if !fits s.params.chunkCap f.bytes then .refused .chunkCapacityExceeded
      else if !fits s.params.outCap f.pixels then .refused .outCapacityExceeded
      else if f.bytes ≠ 0 ∧ s.srcAck = false then .next (enterLoad f s)
      else
        match loadRange s.src f.offset f.bytes 0 s.chunk with
        | none => .refused .sourceContradictsLength
        | some chunk =>
          match unpackRange chunk (f.bytes / 3) 0 s.out with
          | none => .refused .undefinedChunkCell
          | some out =>
            .next (finish (setLengths f.bytes f.pixels { setFrameRegs f (accept s) with chunk := chunk, out := out }))

end Sys2Proof.Machine
end

