-- ==== Sys2Proof/Machine/Unpack.lean ====
section
/-! DEFINITION. The unpack kernel: UNPACK and one triplet of its loop (40_unpack.md). -/

namespace Sys2Proof.Machine

/-- UNPACK (R90) from acceptance to completion (R113). Lengths above the capacities are outside the model whatever else
holds (R36; log 6). -/
def execUnpack (s : State) : Outcome :=
  if s.status.busy then .next s
  else if !fits s.params.chunkCap s.dataLen.toNat then .refused .chunkCapacityExceeded
  else if !fits s.params.outCap s.outLen.toNat then .refused .outCapacityExceeded
  else if !kernelOk s.dataLen.toNat s.outLen.toNat then .next (raiseError .precondition (accept s))
  else
    match unpackRange s.chunk (s.dataLen.toNat / 3) 0 s.out with
    | none => .refused .undefinedChunkCell
    | some out => .next (finish { accept s with out := out })

/-- The lane registers after a lane has taken a triplet (R39, R88). -/
def laneOf (even odd : Sample) : Lane where
  b0 := tripletByte0 even
  b1 := tripletByte1 even odd
  b2 := tripletByte2 odd
  even := wordOfSample even
  odd := wordOfSample odd

/-- One triplet of the packed data, taken by the kernel as iteration TI: `OUT[2*TI] <- E ; OUT[2*TI+1] <- O ; TI <- TI + 1`
(R83, R89). Where no kernel runs, a triplet is data at rest and has no effect (R60; log 16). -/
def execTriplet (even odd : Sample) (s : State) : Outcome :=
  match s.seq with
  | .run r =>
    .next
      { s with
        out := writePair s.out r.ti (wordOfSample even) (wordOfSample odd)
        seq := .run { r with ti := r.ti + 1, laneRegs := r.laneRegs ++ [laneOf even odd] } }
  | .load _ => .next s
  | .idle => .next s

end Sys2Proof.Machine
end

