-- ==== Sys2Proof/Machine/Sequencer.lean ====
section
/-! DEFINITION. The micro-step reading: starting a command (R111, R115) and one move of the sequencer (R115, R89), in the
reference sequencing: all of the load, then the kernel, triplets ascending, LANES of them a step (D25, D35; log 17, log 23). -/

namespace Sys2Proof.Machine

/-- Acceptance of UNPACK (R115): the check, the latches, to RUN. -/
def startUnpack (s : State) : Outcome :=
  if s.status.busy then .next s
  else if !fits s.params.chunkCap s.dataLen.toNat then .refused .chunkCapacityExceeded
  else if !fits s.params.outCap s.outLen.toNat then .refused .outCapacityExceeded
  else if !kernelOk s.dataLen.toNat s.outLen.toNat then .next (raiseError .precondition (accept s))
  else if s.dataLen.toNat / 3 = 0 then .next (finish (accept s))
  else
    .next
      { accept s with
        seq := .run
          { op := .unpack, fbsL := 0, seekL := 0, nL := s.dataLen.toNat / 3, mL := s.outLen.toNat,
            lj := 0, ti := 0, laneRegs := [], before := beforeOf s } }

/-- Acceptance of DECODE (R115): the checks, the latches, FRAME_BYTE_SIZE and SEEK_OFFSET, to LOAD; an empty frame is done
at once. -/
def startDecode (s : State) : Outcome :=
  if s.status.busy then .next s
  else
    match frameRange s with
    | .error e => .next (raiseError e (accept s))
    | .ok f =>
      if !fits s.params.chunkCap f.bytes then .refused .chunkCapacityExceeded
      else if !fits s.params.outCap f.pixels then .refused .outCapacityExceeded
      else if f.bytes = 0 then .next (finish (setLengths f.bytes f.pixels (setFrameRegs f (accept s))))
      else .next (enterLoad f s)

/-- What a `WR CMD` does in the micro-step reading. NOP and CLEAR complete within the transaction (R149), and ADDR is done
in its acceptance (R115; log 18); the triplet is no command. -/
def startCommand (i : Instr) (s : State) : Outcome :=
  match i with
  | .nop => exec .nop s
  | .addr => exec .addr s
  | .unpack => startUnpack s
  | .decode => startDecode s
  | .clear => exec .clear s
  | .triplet even odd => exec (.triplet even odd) s

/-- The next triplet of the packed data, fetched at CHUNK[3*ti] and decoded; `none` where a cell is undefined. -/
def fetchTriplet (chunk : Memory 8) (ti : Nat) : Option Instr :=
  match tripletAt chunk ti with
  | none => none
  | some (b0, b1, b2) =>
    match decode .data24 [b0, b1, b2] with
    | .instr i _ => some i
    | .reject _ => none

/-- `g` iterations of the kernel, each fetching the triplet at TI and executing it (R89). -/
def kernelIterate : Nat → State → Outcome
  | 0, s => .next s
  | g + 1, s =>
    match s.seq with
    | .run r =>
      match fetchTriplet s.chunk r.ti with
      | none => .refused .undefinedChunkCell
      | some i => andThen (exec i s) (kernelIterate g)
    | .load _ => .next s
    | .idle => .next s

/-- `if TI == n_l: done()` (R89). -/
def completeRun (s : State) : Outcome :=
  match s.seq with
  | .run r => if r.ti = r.nL then .next (finish s) else .next s
  | .load _ => .next s
  | .idle => .next s

/-- One kernel step (R89): min(LANES, n_l - TI) triplets, then the test for the end. -/
def kernelStep (r : Running) (s : State) : Outcome :=
  andThen
    (kernelIterate (min s.params.lanes (r.nL - r.ti)) { s with seq := .run { r with laneRegs := [] } })
    completeRun

/-- One move of LOAD (R115): a source byte arrives; without an answer the block waits (R149). -/
def loadStep (r : Running) (s : State) : Outcome :=
  if s.srcAck then
    match s.src.read (srcAddr r.seekL r.lj) with
    | none => .refused .sourceContradictsLength
    | some b =>
      if r.lj + 1 = r.fbsL then
        .next
          (setLengths r.fbsL r.mL
            { s with chunk := s.chunk.write r.lj b, seq := .run { r with lj := r.lj + 1, ti := 0 } })
      else .next { s with chunk := s.chunk.write r.lj b, seq := .load { r with lj := r.lj + 1 } }
  else .next s

/-- One micro-step of the sequencer (R115). An idle block waits with all state retained (R138). -/
def advance (s : State) : Outcome :=
  match s.seq with
  | .idle => .next s
  | .load r => loadStep r s
  | .run r => kernelStep r s

/-- `k` micro-steps. -/
def runTicks : Nat → State → Outcome
  | 0, s => .next s
  | k + 1, s => andThen (advance s) (runTicks k)

end Sys2Proof.Machine
end

