-- ==== Sys2Proof/Machine/HostPort.lean ====
section
/-! DEFINITION. The host port (R69 to R72, 30_encoding.md), the environment, and the fetch of the next instruction. -/

namespace Sys2Proof.Machine

/-- A command in the machine's reading: whole (R113) or started (R115). -/
def performCommand (i : Instr) (s : State) : Outcome :=
  match s.params.reading with
  | .bigStep => exec i s
  | .microStep => startCommand i s

/-- A byte presented to the sequencer by `WR CMD` while the block is idle (R111). A byte that is no command is
IllegalCommand: the previous outcome is forgotten and error 4 raised (R119). -/
def presentByte (c : Byte) (s : State) : Outcome :=
  match decode .cmd8 [c] with
  | .instr i _ => performCommand i s
  | .reject _ => .next (raiseError .illegalCommand (forgetOutcome s))

/-- `WR r, v` (R69): dropped while busy (R15); to CMD it presents a command; to a reserved number it does nothing (R29). -/
def hostWrite (r : BitVec 4) (v : BitVec 129) (s : State) : Outcome :=
  if s.status.busy then .next s
  else
    match regOfNumber r with
    | none => .next s
    | some .cmd => presentByte (v.setWidth 8) s
    | some g => .next (writeReg s v g)

/-- The registers whose read is unspecified while the block is busy (R15): those DECODE writes. -/
def unspecifiedWhileBusy : Reg → Bool
  | .rows => false
  | .columns => false
  | .bitDepth => false
  | .frameCount => false
  | .frameIndex => false
  | .dataLen => true
  | .outLen => true
  | .cmd => false
  | .status => false
  | .frameByteSize => true
  | .seekOffset => true
  | .srcLen => false

/-- `RD r` (R70): the value appears on `h_rdata`; a reserved number reads 0 (R29); a register the running command may write
reads as its old or its new value (R15, U6; log 11). -/
def hostRead (r : BitVec 4) (s : State) : Outcome :=
  match regOfNumber r with
  | none => .next { s with hRdata := 0 }
  | some g =>
    if s.status.busy && unspecifiedWhileBusy g then
      .next { s with hRdata := regWhileBusy s g, freeCount := s.freeCount + 1 }
    else .next { s with hRdata := readReg s g }

/-- `CW j, b` (R71): dropped while busy; an index at or beyond CHUNK_CAP is outside the model (R36). -/
def chunkWrite (j : BitVec 65) (b : Byte) (s : State) : Outcome :=
  if s.status.busy then .next s
  else if fits s.params.chunkCap (j.toNat + 1) then .next { s with chunk := s.chunk.write j.toNat b }
  else .refused .chunkCapacityExceeded

/-- `OR k` (R72): the word appears on `or_data`. A cell without a value is refused (R37, C10); while busy the
read finds the old or the new word (R48, R143, U7; log 11, log 25). -/
def outRead (k : BitVec 65) (s : State) : Outcome :=
  if fits s.params.outCap (k.toNat + 1) then
    if s.status.busy then
      match wordWhileBusy s k.toNat with
      | none => .refused .undefinedOutCell
      | some w => .next { s with orData := w, freeCount := s.freeCount + 1 }
    else
      match s.out.read k.toNat with
      | none => .refused .undefinedOutCell
      | some w => .next { s with orData := w }
  else .refused .outCapacityExceeded

/-- One host transaction (R73). -/
def performTxn (t : Txn) (s : State) : Outcome :=
  match t with
  | .writeReg r v => hostWrite r v s
  | .readReg r => hostRead r s
  | .chunkWrite j b => chunkWrite j b s
  | .outRead k => outRead k s

/-- The environment presents a source (R58): between commands freely; while busy only the source already there (U8; log 10). -/
def setSource (len : BitVec 64) (cells : List (Nat × Byte)) (s : State) : Outcome :=
  if s.status.busy ∧ ¬(len = s.srcLen ∧ Memory.ofCells len.toNat cells = s.src) then .refused .sourceChangedWhileBusy
  else .next { s with srcLen := len, src := Memory.ofCells len.toNat cells }

/-- The reset event (R139, R140): every register, flag, the phase and the cells of CHUNK and OUT as R42 says; the source,
the parameters, the agenda and what the read ports last showed are outside it (log 12, log 24). -/
def applyReset (s : State) : State :=
  { State.reset with
    srcLen := s.srcLen
    src := s.src
    srcAck := s.srcAck
    hRdata := s.hRdata
    orData := s.orData
    params := s.params
    agenda := s.agenda
    freeCount := s.freeCount }

/-- What one entry of the agenda does. -/
def performEvent (e : Event) (s : State) : Outcome :=
  match e with
  | .host t => performTxn t s
  | .tick => advance s
  | .setSource len cells => setSource len cells s
  | .sourceAnswers b => .next { s with srcAck := b }
  | .reset => .next (applyReset s)

/-- A run of agenda entries, one after another. -/
def performEvents : List Event → State → Outcome
  | [], s => .next s
  | e :: rest, s => andThen (performEvent e s) (performEvents rest)

/-- A command byte placed where the step fetches the next one: at the head of the agenda, as the host's `WR CMD`. -/
def placeCommand (w : Nat) (s : State) : State :=
  { s with agenda := .host (.writeReg (numberOfReg .cmd) (BitVec.ofNat 129 (w % 256))) :: s.agenda }

/-- Three bytes placed where the kernel fetches its next triplet: CHUNK[0..2], with the block as the acceptance of an UNPACK
of one triplet leaves it (R115) and the sequencer to move. -/
def placeTriplet (bytes : List Byte) (s : State) : State :=
  { s with
    chunk := ((s.chunk.write 0 (bytes.getD 0 0)).write 1 (bytes.getD 1 0)).write 2 (bytes.getD 2 0)
    dataLen := 3
    outLen := 2
    status := statusAccepted s.status
    seq := .run
      { op := .unpack, fbsL := 0, seekL := 0, nL := 1, mL := 2, lj := 0, ti := 0, laneRegs := [],
        before := { beforeOf s with dataLen := 3, outLen := 2 } }
    agenda := .tick :: s.agenda }

end Sys2Proof.Machine
end

