-- ==== Sys2Proof/Machine/Step.lean ====
section
/-! DEFINITION. One step of the machine: the first entry of the agenda, or, where the outside world does nothing, one move
of the sequencer. -/

namespace Sys2Proof.Machine

/-- One step (R73, R115). -/
def step (s : State) : Host.Outcome State Fault Refusal :=
  match s.agenda with
  | [] => advance s
  | e :: rest => performEvent e { s with agenda := rest }

/-- `s` with the instruction of a table word stored where step fetches its next instruction (log 1, log 3). -/
def State.withFetchWord (s : State) (nbits w : Nat) : State :=
  match formatOfBits nbits with
  | .cmd8 => placeCommand w s
  | .data24 => placeTriplet (tableBytes nbits w) s

end Sys2Proof.Machine
end

