-- ==== Sys2Proof/Safety.lean ====
section
/-! DEFINITION. What counts as a legal state and a safe run, in the terms the claims use. -/

namespace Sys2Proof.Machine

/-- The STATUS invariants of R25. -/
def StatusInv (st : Status) : Prop :=
  (st.err = true ↔ st.errCode ≠ 0) ∧ (st.err = true → st.done = true) ∧
    (st.busy = true → st.done = false ∧ st.err = false ∧ st.errCode = 0) ∧ st.errCode.toNat ≤ 4

/-- The memories are canonical and lie within their bounds; every word of OUT is a 12-bit value (R33 to R36, R77). -/
def MemoryInv (s : State) : Prop :=
  Memory.wf s.chunk = true ∧ Memory.wf s.out = true ∧ Memory.wf s.src = true ∧
    (∀ j b, Memory.read s.chunk j = some b → fits s.params.chunkCap (j + 1) = true) ∧
    (∀ k w, Memory.read s.out k = some w → fits s.params.outCap (k + 1) = true ∧ w.toNat ≤ 4095) ∧
    (∀ a b, Memory.read s.src a = some b → a < s.srcLen.toNat)

/-- What the latches of a running command hold (R115, R36). -/
def LatchInv (s : State) (r : Running) : Prop :=
  0 < r.nL ∧ r.mL = 2 * r.nL ∧ 3 * r.nL < 2 ^ 65 ∧ fits s.params.chunkCap (3 * r.nL) = true ∧
    fits s.params.outCap r.mL = true

/-- The latches of a running DECODE are the frame of the current geometry and index, which lies inside the source
(R97, R105, R115). -/
def FrameLatched (s : State) (r : Running) : Prop :=
  r.op = .decode ∧ r.fbsL = 3 * r.nL ∧ r.mL = pixelCount s ∧ r.seekL = seekOf r.fbsL s ∧
    r.seekL + r.fbsL ≤ s.srcLen.toNat ∧ s.frameByteSize.toNat = r.fbsL ∧ s.seekOffset.toNat = r.seekL

/-- The first `n` bytes of the frame have been copied (R104). -/
def Copied (s : State) (r : Running) (n : Nat) : Prop :=
  ∀ j, j < n → Memory.read s.chunk j = Memory.read s.src (srcAddr r.seekL j) ∧ Memory.read s.chunk j ≠ none

/-- While a command runs OUT is a mixture of whole old and new words, here in ascending order (R48, log 17): the words of the
first TI triplets are the new ones, every other word is the old one. -/
def MixtureInv (s : State) (r : Running) : Prop :=
  Memory.wf r.before.out = true ∧
    ∀ k, Memory.read s.out k = if k < 2 * r.ti then sampleOf s.chunk k else Memory.read r.before.out k

/-- The registers an UNPACK leaves alone are as they were when it was accepted (R90). -/
def RegsKept (s : State) (r : Running) : Prop :=
  r.before.dataLen = s.dataLen ∧ r.before.outLen = s.outLen ∧ r.before.frameByteSize = s.frameByteSize ∧
    r.before.seekOffset = s.seekOffset

/-- PHASE = LOAD (R115). -/
def LoadInv (s : State) (r : Running) : Prop :=
  LatchInv s r ∧ FrameLatched s r ∧ r.lj < r.fbsL ∧ r.ti = 0 ∧ r.laneRegs = [] ∧ Copied s r r.lj ∧
    MixtureInv s r ∧ r.before.dataLen = s.dataLen ∧ r.before.outLen = s.outLen

/-- PHASE = RUN (R115, R89): the kernel of an UNPACK, or of a DECODE whose frame is in CHUNK. -/
def RunInv (s : State) (r : Running) : Prop :=
  LatchInv s r ∧ r.ti < r.nL ∧ r.laneRegs.length ≤ s.params.lanes ∧ s.dataLen.toNat = 3 * r.nL ∧
    s.outLen.toNat = r.mL ∧ MixtureInv s r ∧
    ((r.op = .unpack ∧ r.fbsL = 0 ∧ r.seekL = 0 ∧ r.lj = 0 ∧ RegsKept s r) ∨
      (FrameLatched s r ∧ r.lj = r.fbsL ∧ Copied s r r.fbsL))

/-- BUSY = 1 exactly while a command runs (R24, R39, R115). -/
def SequencerInv (s : State) : Prop :=
  match s.seq with
  | .idle => s.status.busy = false
  | .load r => s.status.busy = true ∧ LoadInv s r
  | .run r => s.status.busy = true ∧ RunInv s r

/-- The invariant of the machine. -/
def State.Inv (s : State) : Prop :=
  s.params.wellFormed = true ∧ StatusInv s.status ∧ MemoryInv s ∧ SequencerInv s

/-- Every latch and counter fits the width R39 gives it. -/
def RunningFits (r : Running) : Prop :=
  r.fbsL < 2 ^ 65 ∧ r.seekL < 2 ^ 129 ∧ r.nL < 2 ^ 64 ∧ r.mL < 2 ^ 65 ∧ r.lj < 2 ^ 65 ∧ r.ti < 2 ^ 64

/-- What the running command still has to read is there: source bytes in LOAD, CHUNK cells in RUN (R49, R37). -/
def Supplied (s : State) : Prop :=
  match s.seq with
  | .idle => True
  | .load r => ∀ j, r.lj ≤ j → j < r.fbsL → Memory.read s.src (srcAddr r.seekL j) ≠ none
  | .run r => ∀ j, 3 * r.ti ≤ j → j < 3 * r.nL → Memory.read s.chunk j ≠ none

/-- How many micro-steps suffice for the running command to end (R149). -/
def remainingMoves (s : State) : Nat :=
  match s.seq with
  | .idle => 0
  | .load r => (r.fbsL - r.lj) + r.nL
  | .run r => r.nL - r.ti

/-- A next state changed by `f`; a stop is a stop. -/
def mapNext (f : State → State) (o : Outcome) : Outcome := andThen o fun t => .next (f t)

/-- `s` with another geometry, frame index and frame count: the registers the kernel does not read (R81). -/
def withGeometry (rows columns bitDepth frameCount : BitVec 32) (frameIndex : BitVec 64) (s : State) : State :=
  { s with rows := rows, columns := columns, bitDepth := bitDepth, frameCount := frameCount, frameIndex := frameIndex }

/-- A run of `k` steps in which the machine never stops. -/
def SafeRun (k : Nat) (s : State) : Prop := ∃ t, Host.Core.run Sys2Proof.core k s = .next t

end Sys2Proof.Machine
end

