-- ==== Sys2Proof/Certificates/Slice0/Obligations.lean ====
section
/-! DEFINITION. The statements for the provers. Hypotheses name the arithmetic of the rules (N, F, S) in the spec's own
formulas, not through the model's functions. -/

open Sys2Proof Sys2Proof.Machine

/-! ### Encoding -/

/-- 30_encoding.md R62, R66, R67: decoding an encoded instruction gives it back, with whatever bytes follow. -/
def Obligations.DecodeOfEncodeIsTheInstruction : Prop :=
  ∀ (i : Instr) (rest : List Byte), i.wellFormed = true → decode i.format (encode i ++ rest) = .instr i rest

/-- The other direction: bytes that decode are the encoding of the instruction they decode to, so no two encodings share
an instruction and no bit of a triplet is dropped (R64). -/
def Obligations.DecodedBytesAreTheEncoding : Prop :=
  ∀ (f : Format) (bs rest : List Byte) (i : Instr),
    decode f bs = .instr i rest → bs = encode i ++ rest ∧ i.format = f

/-- R67, R68: the command bytes are 0x00 to 0x04 and the decoder rejects exactly 0x05 to 0xFF, by name. -/
def Obligations.ReservedCommandBytesAreRejected : Prop :=
  ∀ (b : Byte) (rest : List Byte), decode .cmd8 (b :: rest) = .reject (.reservedCommand b) ↔ 0x05 ≤ b.toNat

/-- Words written out from the tables of R62 and R67. -/
def Obligations.WordsOfTheTablesDecode : Prop :=
  decodeTableWord 8 0x00 = some .nop ∧ decodeTableWord 8 0x01 = some .addr ∧ decodeTableWord 8 0x02 = some .unpack ∧
    decodeTableWord 8 0x03 = some .decode ∧ decodeTableWord 8 0x04 = some .clear ∧ decodeTableWord 8 0x05 = none ∧
    decodeTableWord 24 0b101010111100110111101111 = some (.triplet 0xABC 0xDEF) ∧
    decodeTableWord 24 0b000000001111000000000000 = some (.triplet 0x00F 0x000)

/-- R74: a script line and its transaction determine each other. -/
def Obligations.ScriptLinesAndTransactionsAgree : Prop :=
  (∀ t : Txn, decodeTxn (encodeTxn t) = some t) ∧
    ∀ (l : ScriptLine) (t : Txn), decodeTxn l = some t → encodeTxn t = l

/-! ### The unpack function -/

/-- R76, R64: the two samples by the formulas, in arithmetic, and bit by bit; and the fields the decoder takes from a
triplet are those samples. -/
def Obligations.UnpackFunctionInArithmetic : Prop :=
  ∀ b0 b1 b2 : Byte,
    sampleEven b0 b1 = (b0.setWidth 16 <<< 4) ||| (b1.setWidth 16 >>> 4) ∧
      sampleOdd b1 b2 = ((b1.setWidth 16 &&& 0x000F) <<< 8) ||| b2.setWidth 16 ∧
      (sampleEven b0 b1).extractLsb' 4 8 = b0 ∧ (sampleEven b0 b1).extractLsb' 0 4 = b1.extractLsb' 4 4 ∧
      (sampleOdd b1 b2).extractLsb' 8 4 = b1.extractLsb' 0 4 ∧ (sampleOdd b1 b2).extractLsb' 0 8 = b2 ∧
      (sampleEven b0 b1).toNat = 16 * b0.toNat + b1.toNat / 16 ∧
      (sampleOdd b1 b2).toNat = 256 * (b1.toNat % 16) + b2.toNat ∧
      decode .data24 [b0, b1, b2] = .instr (.triplet ((sampleEven b0 b1).setWidth 12) ((sampleOdd b1 b2).setWidth 12)) [] ∧
      sampleEven b0 b1 = wordOfSample (evenField b0 b1) ∧ sampleOdd b1 b2 = wordOfSample (oddField b1 b2)

/-- R77: both samples stay within 12 bits, bits 15:12 are 0, and both extremes are reached. -/
def Obligations.SamplesStayWithinTwelveBits : Prop :=
  (∀ b0 b1 b2 : Byte,
      (sampleEven b0 b1).toNat ≤ 4095 ∧ (sampleOdd b1 b2).toNat ≤ 4095 ∧
        (sampleEven b0 b1).extractLsb' 12 4 = 0 ∧ (sampleOdd b1 b2).extractLsb' 12 4 = 0) ∧
    sampleEven 0x00 0x00 = 0 ∧ sampleOdd 0x00 0x00 = 0 ∧ sampleEven 0xFF 0xFF = 4095 ∧ sampleOdd 0xFF 0xFF = 4095

/-- R79: the unpack function is a bijection onto pairs of 12-bit values, with the inverse the rule gives. -/
def Obligations.UnpackFunctionIsABijection : Prop :=
  (∀ b0 b1 b2 : Byte,
      b0 = (sampleEven b0 b1 >>> 4).setWidth 8 ∧
        b1 = (((sampleEven b0 b1 &&& 0xF) <<< 4) ||| (sampleOdd b1 b2 >>> 8)).setWidth 8 ∧
        b2 = (sampleOdd b1 b2 &&& 0xFF).setWidth 8) ∧
    ∀ e o : Word, e.toNat ≤ 4095 → o.toNat ≤ 4095 →
      sampleEven ((e >>> 4).setWidth 8) ((((e &&& 0xF) <<< 4) ||| (o >>> 8)).setWidth 8) = e ∧
        sampleOdd ((((e &&& 0xF) <<< 4) ||| (o >>> 8)).setWidth 8) ((o &&& 0xFF).setWidth 8) = o

/-! ### NOP, CLEAR, acceptance -/

/-- R117: byte 0x00 is NOP, which changes no state, busy or not. -/
def Obligations.NopChangesNothing : Prop :=
  decode .cmd8 [0x00] = .instr .nop [] ∧ ∀ s : State, exec .nop s = .next s

/-- R118: byte 0x04 is CLEAR, which forgets the outcome, so STATUS is 0x00, and changes nothing else; while busy it is dropped. -/
def Obligations.ClearForgetsTheOutcome : Prop :=
  decode .cmd8 [0x04] = .instr .clear [] ∧ ∀ s : State,
    (s.status.busy = false →
      ∃ t, exec .clear s = .next t ∧ statusByte t.status = 0x00 ∧ t.status.busy = false ∧ t.status.done = false ∧
        t.status.err = false ∧ t.status.errCode = 0 ∧ t = { s with status := t.status }) ∧
      (s.status.busy = true → exec .clear s = .next s)

/-- R111: a command made while BUSY = 1 is dropped, in either reading. -/
def Obligations.CommandsAreDroppedWhileBusy : Prop :=
  ∀ (i : Instr) (s : State), i.format = .cmd8 → s.status.busy = true →
    exec i s = .next s ∧ startCommand i s = .next s

/-! ### ADDR -/

/-- R101: on success ADDR writes FRAME_BYTE_SIZE and SEEK_OFFSET, exact and unwrapped, STATUS is 0x02, and nothing else
changes. -/
def Obligations.AddrComputesTheFrame : Prop :=
  ∀ (s : State) (n f o : Nat),
    n = s.rows.toNat * s.columns.toNat → f = n * 3 / 2 → o = f * s.frameIndex.toNat →
    s.status.busy = false → s.bitDepth = 12 → n % 2 = 0 → o + f ≤ s.srcLen.toNat →
    ∃ t, exec .addr s = .next t ∧ t.frameByteSize.toNat = f ∧ t.seekOffset.toNat = o ∧ statusByte t.status = 0x02 ∧
      t = { s with frameByteSize := t.frameByteSize, seekOffset := t.seekOffset, status := t.status, seq := .idle }

/-- R127, R129: ADDR and DECODE report the first failing check in the order format, evenness, range, and an error changes
nothing but STATUS. That a DECODE beyond a capacity (R36) still reports a failing check is the model's choice (log 6). -/
def Obligations.FrameCommandsReportTheFirstFailingCheck : Prop :=
  ∀ (i : Instr) (s : State) (n f o : Nat),
    i = .addr ∨ i = .decode →
    n = s.rows.toNat * s.columns.toNat → f = n * 3 / 2 → o = f * s.frameIndex.toNat → s.status.busy = false →
    (s.bitDepth ≠ 12 →
      ∃ t, exec i s = .next t ∧ statusByte t.status = 0x36 ∧ t = { s with status := t.status, seq := .idle }) ∧
    (s.bitDepth = 12 → n % 2 = 1 →
      ∃ t, exec i s = .next t ∧ statusByte t.status = 0x16 ∧ t = { s with status := t.status, seq := .idle }) ∧
    (s.bitDepth = 12 → n % 2 = 0 → o + f > s.srcLen.toNat →
      ∃ t, exec i s = .next t ∧ statusByte t.status = 0x26 ∧ t = { s with status := t.status, seq := .idle })

/-- R95: for an even pixel count the frame byte size is exact, a multiple of 3, three bytes for each pair of pixels, and
fits its widths. -/
def Obligations.FrameByteSizeIsThreeBytesPerPixelPair : Prop :=
  ∀ n : Nat, n < 2 ^ 64 → n % 2 = 0 →
    frameBytes n = n * 3 / 2 ∧ n * 3 < 2 ^ 66 ∧ frameBytes n < 2 ^ 65 ∧ frameBytes n = 3 * (n / 2) ∧ frameBytes n % 3 = 0 ∧ frameBytes n / 3 * 2 = n

/-- R94: for an odd pixel count the truncated size is never a multiple of 3. -/
def Obligations.OddPixelCountsNeverFillTriplets : Prop := ∀ n : Nat, n % 2 = 1 → frameBytes n % 3 = 1

/-- R98, R8: every intermediate result fits the width the rules give it, whatever the registers hold. -/
def Obligations.AddressArithmeticNeverOverflows : Prop :=
  ∀ s : State,
    pixelCount s < 2 ^ 64 ∧ pixelCount s * 3 < 2 ^ 66 ∧ frameBytes (pixelCount s) < 2 ^ 65 ∧
      seekOf (frameBytes (pixelCount s)) s < 2 ^ 129 ∧
      seekOf (frameBytes (pixelCount s)) s + frameBytes (pixelCount s) < 2 ^ 129

/-- R100: with the format and the evenness right, frame k is [k*F, (k+1)*F) and consecutive frames abut; a frame passes
exactly when it lies among the whole frames of the source; passing is downward closed; and an empty frame always passes. -/
def Obligations.FramesTileTheSource : Prop :=
  ∀ (s : State) (f : Nat), f = s.rows.toNat * s.columns.toNat * 3 / 2 → s.bitDepth = 12 →
    s.rows.toNat * s.columns.toNat % 2 = 0 →
    (∀ k : BitVec 64, 0 < f →
      ((∃ r, frameRange { s with frameIndex := k } = .ok r) ↔ k.toNat < s.srcLen.toNat / f) ∧
      (k.toNat < s.srcLen.toNat / f ↔ (k.toNat + 1) * f ≤ s.srcLen.toNat)) ∧
    (∀ (k : BitVec 64) (r : FrameRange), frameRange { s with frameIndex := k } = .ok r →
      r.offset = k.toNat * f ∧ r.offset + r.bytes = (k.toNat + 1) * f) ∧
    (∀ (k l : BitVec 64) (r : FrameRange), l.toNat ≤ k.toNat → frameRange { s with frameIndex := k } = .ok r →
      ∃ q, frameRange { s with frameIndex := l } = .ok q) ∧
    (∀ (k l : BitVec 64) (r q : FrameRange), l.toNat = k.toNat + 1 → frameRange { s with frameIndex := k } = .ok r →
      frameRange { s with frameIndex := l } = .ok q → q.offset = r.offset + r.bytes) ∧
    (∀ k : BitVec 64, f = 0 → ∃ r, frameRange { s with frameIndex := k } = .ok r)

/-! ### UNPACK and the kernel -/

/-- R84, R83, R90: with lengths that match and CHUNK[0 .. DATA_LEN-1] defined, UNPACK fills OUT[0 .. OUT_LEN-1] by the
formulas of R76, two words of at most 4095 for every three bytes, STATUS is 0x02, words from OUT_LEN on and everything else are unchanged. -/
def Obligations.UnpackFillsTheOutputBuffer : Prop :=
  ∀ (s : State) (l m : Nat), l = s.dataLen.toNat → m = s.outLen.toNat → s.status.busy = false →
    fits s.params.chunkCap l = true → fits s.params.outCap m = true → l % 3 = 0 → m = l / 3 * 2 →
    (∀ j, j < l → Memory.read s.chunk j ≠ none) →
    ∃ t, exec .unpack s = .next t ∧ statusByte t.status = 0x02 ∧
      (∀ i, i < l / 3 → ∃ b0 b1 b2 : Byte,
        Memory.read s.chunk (3 * i) = some b0 ∧ Memory.read s.chunk (3 * i + 1) = some b1 ∧
          Memory.read s.chunk (3 * i + 2) = some b2 ∧
          Memory.read t.out (2 * i) = some ((b0.setWidth 16 <<< 4) ||| (b1.setWidth 16 >>> 4)) ∧
          Memory.read t.out (2 * i + 1) = some (((b1.setWidth 16 &&& 0x000F) <<< 8) ||| b2.setWidth 16)) ∧
      (∀ k, k < m → ∃ w : Word, Memory.read t.out k = some w ∧ w.toNat ≤ 4095) ∧
      (∀ k, m ≤ k → Memory.read t.out k = Memory.read s.out k) ∧
      t = { s with status := t.status, seq := .idle, out := t.out }

/-- R82, R85: lengths that do not match end UNPACK with PreconditionError, and nothing but STATUS changes. -/
def Obligations.UnpackRejectsLengthsThatDoNotMatch : Prop :=
  ∀ (s : State) (l m : Nat), l = s.dataLen.toNat → m = s.outLen.toNat → s.status.busy = false →
    fits s.params.chunkCap l = true → fits s.params.outCap m = true → (l % 3 ≠ 0 ∨ m ≠ l / 3 * 2) →
    ∃ t, exec .unpack s = .next t ∧ statusByte t.status = 0x16 ∧ t = { s with status := t.status, seq := .idle }

/-- R37, R90: an undefined cell among those UNPACK would read is refused, never read as a value. -/
def Obligations.UnpackRefusesUndefinedCells : Prop :=
  ∀ (s : State) (l j : Nat), l = s.dataLen.toNat → s.status.busy = false →
    fits s.params.chunkCap l = true → fits s.params.outCap s.outLen.toNat = true → l % 3 = 0 →
    s.outLen.toNat = l / 3 * 2 → j < l → Memory.read s.chunk j = none →
    exec .unpack s = .refused .undefinedChunkCell

/-- R36: a buffer beyond its capacity is refused, by UNPACK at acceptance and by a DECODE whose checks pass. -/
def Obligations.BuffersBeyondCapacityAreRefused : Prop :=
  ∀ (s : State) (f : FrameRange), s.status.busy = false →
    (fits s.params.chunkCap s.dataLen.toNat = false → exec .unpack s = .refused .chunkCapacityExceeded) ∧
    (fits s.params.chunkCap s.dataLen.toNat = true → fits s.params.outCap s.outLen.toNat = false →
      exec .unpack s = .refused .outCapacityExceeded) ∧
    (frameRange s = .ok f → fits s.params.chunkCap f.bytes = false → exec .decode s = .refused .chunkCapacityExceeded) ∧
    (frameRange s = .ok f → fits s.params.chunkCap f.bytes = true → fits s.params.outCap f.pixels = false →
      exec .decode s = .refused .outCapacityExceeded)

/-- R87: the final OUT is the same for every order of the iterations, and for every split into two ranges run in either
order. -/
def Obligations.OrderOfTripletsDoesNotMatter : Prop :=
  ∀ (chunk : Memory 8) (out : Memory 16) (n : Nat), Memory.wf out = true →
    (∀ l : List Nat, l.Perm (List.range n) → unpackList chunk l out = unpackRange chunk n 0 out) ∧
    (∀ p q : Nat, p + q = n →
      (unpackRange chunk p 0 out).bind (unpackRange chunk q p) = unpackRange chunk n 0 out ∧
      (unpackRange chunk q p out).bind (unpackRange chunk p 0) = unpackRange chunk n 0 out)

/-- R87: the kernel is the closed form `OUT[k] = sample(k)` for all k < 2n, and other words keep their contents. -/
def Obligations.KernelIsItsClosedForm : Prop :=
  ∀ (chunk : Memory 8) (out out' : Memory 16) (n : Nat), unpackRange chunk n 0 out = some out' →
    ∀ k, (k < 2 * n → Memory.read out' k = sampleOf chunk k ∧ Memory.read out' k ≠ none) ∧
      (2 * n ≤ k → Memory.read out' k = Memory.read out k)

/-- R83, R89: a triplet taken by the running kernel writes its two samples at OUT[2*TI] and OUT[2*TI+1], TI advances by
one, the lane's registers are recorded, and nothing else changes. -/
def Obligations.TripletWritesItsTwoSamples : Prop :=
  ∀ (s : State) (r : Running) (e o : Sample), s.seq = .run r →
    ∃ t, exec (.triplet e o) s = .next t ∧
      Memory.read t.out (2 * r.ti) = some (e.setWidth 16) ∧ Memory.read t.out (2 * r.ti + 1) = some (o.setWidth 16) ∧
      (∀ k, k ≠ 2 * r.ti → k ≠ 2 * r.ti + 1 → Memory.read t.out k = Memory.read s.out k) ∧
      t = { s with
            out := t.out
            seq := .run { r with ti := r.ti + 1, laneRegs := r.laneRegs ++ [laneOf e o] } }

/-- The model's reading of R60 (log 16): where no kernel runs, a triplet is data at rest and has no effect. -/
def Obligations.TripletAtRestHasNoEffect : Prop :=
  ∀ (s : State) (e o : Sample), (∀ r, s.seq ≠ .run r) → exec (.triplet e o) s = .next s

/-- R89: one kernel step takes min(LANES, n_l - TI) triplets; it leaves the kernel running with TI advanced by that many,
or, when TI reaches n_l, ends the command. -/
def Obligations.KernelStepTakesOneTripletPerLane : Prop :=
  ∀ (s : State) (r : Running) (g : Nat), s.seq = .run r → g = min s.params.lanes (r.nL - r.ti) → r.ti ≤ r.nL →
    (∀ j, 3 * r.ti ≤ j → j < 3 * (r.ti + g) → Memory.read s.chunk j ≠ none) →
    ∃ t, advance s = .next t ∧
      (∀ k, 2 * r.ti ≤ k → k < 2 * (r.ti + g) → Memory.read t.out k = sampleOf s.chunk k) ∧
      (∀ k, k < 2 * r.ti ∨ 2 * (r.ti + g) ≤ k → Memory.read t.out k = Memory.read s.out k) ∧
      (r.ti + g = r.nL → t = { s with out := t.out, seq := .idle, status := t.status } ∧
        t.status.busy = false ∧ t.status.done = true ∧ t.status.err = s.status.err ∧
        t.status.errCode = s.status.errCode) ∧
      (r.ti + g < r.nL → ∃ lanes : List Lane, lanes.length = g ∧
        t = { s with out := t.out, seq := .run { r with ti := r.ti + g, laneRegs := lanes } })

/-! ### DECODE -/

/-- R106, R107: on success DECODE leaves the frame's bytes in CHUNK, its samples in OUT by the closed form, the lengths,
FRAME_BYTE_SIZE and SEEK_OFFSET set, STATUS = 0x02, and everything else as before. -/
def Obligations.DecodeReadsAndUnpacksTheFrame : Prop :=
  ∀ (s : State) (n f o : Nat),
    n = s.rows.toNat * s.columns.toNat → f = n * 3 / 2 → o = f * s.frameIndex.toNat →
    s.status.busy = false → s.bitDepth = 12 → n % 2 = 0 → o + f ≤ s.srcLen.toNat →
    fits s.params.chunkCap f = true → fits s.params.outCap n = true → (s.srcAck = true ∨ f = 0) →
    (∀ j, j < f → Memory.read s.src (o + j) ≠ none) →
    ∃ t, exec .decode s = .next t ∧ statusByte t.status = 0x02 ∧
      t.frameByteSize.toNat = f ∧ t.seekOffset.toNat = o ∧ t.dataLen.toNat = f ∧ t.outLen.toNat = n ∧
      (∀ j, j < f → Memory.read t.chunk j = Memory.read s.src (o + j)) ∧
      (∀ j, f ≤ j → Memory.read t.chunk j = Memory.read s.chunk j) ∧
      (∀ k, k < n → ∃ (b0 b1 b2 : Byte) (w : Word),
        Memory.read s.src (o + 3 * (k / 2)) = some b0 ∧ Memory.read s.src (o + 3 * (k / 2) + 1) = some b1 ∧
          Memory.read s.src (o + 3 * (k / 2) + 2) = some b2 ∧ Memory.read t.out k = some w ∧
          (k % 2 = 0 → w.toNat = 16 * b0.toNat + b1.toNat / 16) ∧
          (k % 2 = 1 → w.toNat = 256 * (b1.toNat % 16) + b2.toNat)) ∧
      (∀ k, n ≤ k → Memory.read t.out k = Memory.read s.out k) ∧
      (∀ r c, framePixel t r c = Memory.read t.out (r * s.columns.toNat + c)) ∧
      t = { s with
            frameByteSize := t.frameByteSize
            seekOffset := t.seekOffset
            dataLen := t.dataLen
            outLen := t.outLen
            status := t.status
            seq := .idle
            chunk := t.chunk
            out := t.out }

/-- R38, R52: after a successful DECODE the row-major view holds pixel (r, c) as the sample of the source triplet that
packs it. -/
def Obligations.RowMajorViewOfADecodedFrame : Prop :=
  ∀ (s t : State) (n f o r c : Nat),
    n = s.rows.toNat * s.columns.toNat → f = n * 3 / 2 → o = f * s.frameIndex.toNat →
    s.status.busy = false → exec .decode s = .next t → statusByte t.status = 0x02 →
    r < s.rows.toNat → c < s.columns.toNat →
    ∃ b0 b1 b2 : Byte,
      Memory.read s.src (o + 3 * ((r * s.columns.toNat + c) / 2)) = some b0 ∧
        Memory.read s.src (o + 3 * ((r * s.columns.toNat + c) / 2) + 1) = some b1 ∧
        Memory.read s.src (o + 3 * ((r * s.columns.toNat + c) / 2) + 2) = some b2 ∧
        framePixel t r c =
          some (if (r * s.columns.toNat + c) % 2 = 0 then sampleEven b0 b1 else sampleOdd b1 b2)

/-- R108: a successful DECODE is ADDR, the chunk writes of the frame's bytes, the two length writes and UNPACK, as host
transactions in the big-step reading; a failing DECODE is a failing ADDR, also beyond a
capacity (the model's choice, log 6). -/
def Obligations.DecodeIsAddrLoadUnpack : Prop :=
  ∀ (s : State) (n f o : Nat),
    n = s.rows.toNat * s.columns.toNat → f = n * 3 / 2 → o = f * s.frameIndex.toNat →
    s.status.busy = false → s.params.reading = .bigStep →
    (∀ bytes : List Byte, s.bitDepth = 12 → n % 2 = 0 → o + f ≤ s.srcLen.toNat →
      fits s.params.chunkCap f = true → fits s.params.outCap n = true → (s.srcAck = true ∨ f = 0) →
      bytes.length = f → (∀ j, j < f → Memory.read s.src (o + j) = bytes[j]?) →
      performEvents
          ([writeOf .cmd 0x01] ++ chunkWritesFrom 0 bytes ++ [writeOf .dataLen f, writeOf .outLen n, writeOf .cmd 0x02]) s =
        performEvents [writeOf .cmd 0x03] s) ∧
    ((s.bitDepth ≠ 12 ∨ n % 2 = 1 ∨ o + f > s.srcLen.toNat) →
      performEvents [writeOf .cmd 0x01] s = performEvents [writeOf .cmd 0x03] s)

/-- R109: the outcome of DECODE and its output are a function of BIT_DEPTH, ROWS, COLUMNS, FRAME_INDEX, SRC_LEN and the
frame's bytes; nothing else of the state, LANES among it, matters. -/
def Obligations.DecodeDependsOnItsInputsAlone : Prop :=
  ∀ (s t s' : State) (n f o : Nat),
    n = s.rows.toNat * s.columns.toNat → f = n * 3 / 2 → o = f * s.frameIndex.toNat →
    s.status.busy = false → t.status.busy = false → t.bitDepth = s.bitDepth → t.rows = s.rows →
    t.columns = s.columns → t.frameIndex = s.frameIndex → t.srcLen = s.srcLen → t.srcAck = s.srcAck →
    t.params.chunkCap = s.params.chunkCap → t.params.outCap = s.params.outCap →
    (∀ j, j < f → Memory.read t.src (o + j) = Memory.read s.src (o + j)) →
    exec .decode s = .next s' →
    ∃ t', exec .decode t = .next t' ∧ statusByte t'.status = statusByte s'.status ∧
      (statusByte s'.status = 0x02 →
        t'.frameByteSize = s'.frameByteSize ∧ t'.seekOffset = s'.seekOffset ∧ t'.dataLen = s'.dataLen ∧
          t'.outLen = s'.outLen ∧ (∀ j, j < f → Memory.read t'.chunk j = Memory.read s'.chunk j) ∧
          ∀ k, k < n → Memory.read t'.out k = Memory.read s'.out k)

/-- R109: DECODE repeated against an unmodified source leaves the very state it left the first time. -/
def Obligations.DecodeIsIdempotent : Prop :=
  ∀ s t : State, Memory.wf s.chunk = true → Memory.wf s.out = true → exec .decode s = .next t →
    exec .decode t = .next t

/-- R149, R115: a DECODE that passes its checks with bytes to read and a source that does not answer is accepted, leaves
BUSY = 1 with FRAME_BYTE_SIZE, SEEK_OFFSET and the latches written and nothing else changed, and waits in LOAD: no micro-step,
however many, changes anything, and a reset ends the wait. If the source then answers, the load goes on from there and ends in
the outcome of a DECODE whose source answered. That exec itself enters LOAD, and the count of moves, are the model's choice
(log 8, log 23, log 28). -/
def Obligations.DecodeWaitsOnASilentSource : Prop :=
  ∀ (s : State) (n f o : Nat),
    n = s.rows.toNat * s.columns.toNat → f = n * 3 / 2 → o = f * s.frameIndex.toNat →
    s.status.busy = false → s.bitDepth = 12 → n % 2 = 0 → o + f ≤ s.srcLen.toNat →
    fits s.params.chunkCap f = true → fits s.params.outCap n = true → 0 < f → s.srcAck = false →
    ∃ (t : State) (r : Running), exec .decode s = .next t ∧ statusByte t.status = 0x01 ∧
      t.frameByteSize.toNat = f ∧ t.seekOffset.toNat = o ∧ t.seq = .load r ∧ r.op = .decode ∧ r.fbsL = f ∧ r.seekL = o ∧
      r.nL = f / 3 ∧ r.mL = n ∧ r.lj = 0 ∧
      t = { s with status := t.status, frameByteSize := t.frameByteSize, seekOffset := t.seekOffset, seq := .load r } ∧
      (∀ k, runTicks k t = .next t) ∧
      (∃ u, performEvent .reset t = .next u ∧ u.seq = .idle ∧ statusByte u.status = 0x00) ∧
      ∀ k, s.params.wellFormed = true → f + f / 3 ≤ k →
        runTicks k { t with srcAck := true } = exec .decode { s with srcAck := true }

/-- R49, U14 (log 9): a source that lacks a byte it promised is refused, never padded. -/
def Obligations.DecodeRefusesASourceThatContradictsItsLength : Prop :=
  ∀ (s : State) (f : FrameRange) (j : Nat), s.status.busy = false → frameRange s = .ok f →
    fits s.params.chunkCap f.bytes = true → fits s.params.outCap f.pixels = true → s.srcAck = true → j < f.bytes →
    Memory.read s.src (f.offset + j) = none → exec .decode s = .refused .sourceContradictsLength

/-! ### Rules over all commands -/

/-- R110, R128, R129: a command that ends in error has changed nothing but STATUS and is back in IDLE; a command that leaves
ERR = 1 without ending in error is one that changed nothing at all. -/
def Obligations.ErrorsChangeNothingButStatus : Prop :=
  ∀ (i : Instr) (s t : State), i.format = .cmd8 → exec i s = .next t → t.status.err = true →
    t = s ∨ (t = { s with status := t.status, seq := .idle } ∧ t.status.done = true ∧ t.status.busy = false)

/-- R126: which command can raise which error; a command that starts while idle and is not NOP ends with one of its own. -/
def Obligations.CommandsRaiseOnlyTheirErrors : Prop :=
  ∀ (s t : State), s.status.busy = false →
    (exec .nop s = .next t → t.status = s.status) ∧
    (exec .addr s = .next t → t.status.errCode ∈ [0, 1, 2, 3]) ∧
    (exec .unpack s = .next t → t.status.errCode ∈ [0, 1]) ∧
    (exec .decode s = .next t → t.status.errCode ∈ [0, 1, 2, 3]) ∧
    (exec .clear s = .next t → t.status.errCode = 0) ∧
    (∀ c : Byte, 0x05 ≤ c.toNat → ∃ u, presentByte c s = .next u ∧ u.status.errCode = 4)

/-- R16 to R20, R33: no command writes ROWS, COLUMNS, BIT_DEPTH, FRAME_COUNT, FRAME_INDEX or the source. -/
def Obligations.NoCommandWritesTheGeometryOrTheSource : Prop :=
  ∀ (i : Instr) (s t : State), exec i s = .next t →
    t.rows = s.rows ∧ t.columns = s.columns ∧ t.bitDepth = s.bitDepth ∧ t.frameCount = s.frameCount ∧
      t.frameIndex = s.frameIndex ∧ t.src = s.src ∧ t.srcLen = s.srcLen ∧ t.srcAck = s.srcAck ∧
      t.params = s.params ∧ t.hRdata = s.hRdata ∧ t.orData = s.orData ∧ t.agenda = s.agenda ∧
      t.freeCount = s.freeCount

/-- R19: no command reads FRAME_COUNT. -/
def Obligations.NoCommandReadsFrameCount : Prop :=
  ∀ (i : Instr) (s : State) (c : BitVec 32),
    exec i { s with frameCount := c } = mapNext (fun t => { t with frameCount := c }) (exec i s)

/-- R81: UNPACK reads neither the geometry, nor BIT_DEPTH, FRAME_COUNT, FRAME_INDEX, nor the source. -/
def Obligations.UnpackReadsNoGeometryAndNoSource : Prop :=
  ∀ (s : State) (rows columns bitDepth frameCount : BitVec 32) (frameIndex len : BitVec 64) (src : Memory 8),
    exec .unpack (withGeometry rows columns bitDepth frameCount frameIndex { s with src := src, srcLen := len }) =
      mapNext (fun t => withGeometry rows columns bitDepth frameCount frameIndex { t with src := src, srcLen := len })
        (exec .unpack s)

/-! ### Registers and the host port -/

/-- R69, R70, R16 to R22: while idle a read/write register takes a value of its width, reads it back, and no other register
and no memory changes. -/
def Obligations.WrittenRegistersReadBack : Prop :=
  ∀ (s : State) (g : Reg) (v : BitVec 129), s.status.busy = false →
    g ∈ [Reg.rows, Reg.columns, Reg.bitDepth, Reg.frameCount, Reg.frameIndex, Reg.dataLen, Reg.outLen] →
    v.toNat < 2 ^ g.width →
    ∃ t u, performTxn (.writeReg (numberOfReg g) v) s = .next t ∧ performTxn (.readReg (numberOfReg g)) t = .next u ∧
      u.hRdata = v ∧ (∀ h, h ≠ g → readReg t h = readReg s h) ∧ t.chunk = s.chunk ∧ t.out = s.out ∧ t.src = s.src ∧
      t.seq = s.seq ∧ t.params = s.params ∧ t.hRdata = s.hRdata ∧ t.orData = s.orData ∧ t.agenda = s.agenda ∧
      t.srcAck = s.srcAck ∧ t.freeCount = s.freeCount

/-- R29, R15: a write to a read-only register or to a reserved number changes nothing, and a reserved number reads 0. -/
def Obligations.ReadOnlyAndReservedWritesAreIgnored : Prop :=
  ∀ (s : State) (r : BitVec 4) (v : BitVec 129),
    (0x8 ≤ r.toNat → performTxn (.writeReg r v) s = .next s) ∧
      (0xC ≤ r.toNat → performTxn (.readReg r) s = .next { s with hRdata := 0 })

/-- R15, R71, R142: while BUSY = 1 every host write, to a register, to CMD or to CHUNK, changes nothing. -/
def Obligations.HostWritesAreDroppedWhileBusy : Prop :=
  ∀ (s : State) (r : BitVec 4) (v : BitVec 129) (j : BitVec 65) (b : Byte), s.status.busy = true →
    performTxn (.writeReg r v) s = .next s ∧ performTxn (.chunkWrite j b) s = .next s

/-- R70, R15, R23, R24, R29: a read always answers and changes nothing but the read port. It shows the register zero-extended
(STATUS with its fields at their bits), and 0 for CMD and for a reserved number. Only the four registers R15 names may
differ, and only while a command runs: each then shows its old or its new value (R143, U6). That old and new are kept apart, in the
record `before` and by a draw of `freeCount`, is the model's choice (log 11). -/
def Obligations.RegisterReadsReturnTheRegister : Prop :=
  ∀ s : State,
    (statusByte s.status).toNat =
        16 * s.status.errCode.toNat + 4 * s.status.err.toNat + 2 * s.status.done.toNat + s.status.busy.toNat ∧
    ∀ r : BitVec 4,
      ∃ t, performTxn (.readReg r) s = .next t ∧ t = { s with hRdata := t.hRdata, freeCount := t.freeCount } ∧
        (r = 0x0 → t.hRdata = s.rows.setWidth 129) ∧
        (r = 0x1 → t.hRdata = s.columns.setWidth 129) ∧
        (r = 0x2 → t.hRdata = s.bitDepth.setWidth 129) ∧
        (r = 0x3 → t.hRdata = s.frameCount.setWidth 129) ∧
        (r = 0x4 → t.hRdata = s.frameIndex.setWidth 129) ∧
        (r = 0x8 → t.hRdata = (statusByte s.status).setWidth 129) ∧
        (r = 0xB → t.hRdata = s.srcLen.setWidth 129) ∧
        (r = 0x7 ∨ 0xC ≤ r.toNat → t.hRdata = 0) ∧
        (s.status.busy = false →
          (r = 0x5 → t.hRdata = s.dataLen.setWidth 129) ∧
          (r = 0x6 → t.hRdata = s.outLen.setWidth 129) ∧
          (r = 0x9 → t.hRdata = s.frameByteSize.setWidth 129) ∧
          (r = 0xA → t.hRdata = s.seekOffset)) ∧
        (∀ q, s.status.busy = true → runningOf s = some q → q.op = .decode →
          (r = 0x5 → t.hRdata = q.before.dataLen.setWidth 129 ∨ t.hRdata = (BitVec.ofNat 65 q.fbsL).setWidth 129) ∧
          (r = 0x6 → t.hRdata = q.before.outLen.setWidth 129 ∨ t.hRdata = (BitVec.ofNat 65 q.mL).setWidth 129) ∧
          (r = 0x9 →
            t.hRdata = q.before.frameByteSize.setWidth 129 ∨ t.hRdata = (BitVec.ofNat 65 q.fbsL).setWidth 129) ∧
          (r = 0xA → t.hRdata = q.before.seekOffset ∨ t.hRdata = BitVec.ofNat 129 q.seekL)) ∧
        (∀ q, s.status.busy = true → runningOf s = some q → q.op ≠ .decode →
          (r = 0x5 → t.hRdata = q.before.dataLen.setWidth 129 ∨ t.hRdata = s.dataLen.setWidth 129) ∧
          (r = 0x6 → t.hRdata = q.before.outLen.setWidth 129 ∨ t.hRdata = s.outLen.setWidth 129) ∧
          (r = 0x9 → t.hRdata = q.before.frameByteSize.setWidth 129 ∨ t.hRdata = s.frameByteSize.setWidth 129) ∧
          (r = 0xA → t.hRdata = q.before.seekOffset ∨ t.hRdata = s.seekOffset))

/-- R71: a chunk write while idle and below CHUNK_CAP defines the cell and changes nothing else; at or beyond CHUNK_CAP it
is refused (R36); while busy it changes nothing. -/
def Obligations.ChunkWriteDefinesTheCell : Prop :=
  ∀ (s : State) (j : BitVec 65) (b : Byte),
    (s.status.busy = true → performTxn (.chunkWrite j b) s = .next s) ∧
    (s.status.busy = false → fits s.params.chunkCap (j.toNat + 1) = true →
      ∃ t, performTxn (.chunkWrite j b) s = .next t ∧ Memory.read t.chunk j.toNat = some b ∧
        (∀ a, a ≠ j.toNat → Memory.read t.chunk a = Memory.read s.chunk a) ∧ t = { s with chunk := t.chunk }) ∧
    (s.status.busy = false → fits s.params.chunkCap (j.toNat + 1) = false →
      performTxn (.chunkWrite j b) s = .refused .chunkCapacityExceeded)

/-- R75: `LOADCHUNK` leaves the packet in CHUNK[0 .. L-1] and its length in DATA_LEN, and changes nothing else. -/
def Obligations.LoadChunkPlacesThePacket : Prop :=
  ∀ (s : State) (bytes : List Byte), s.status.busy = false → bytes.length < 2 ^ 65 →
    fits s.params.chunkCap bytes.length = true →
    ∃ t, performEvents (expandPseudo (.loadChunk bytes)) s = .next t ∧ t.dataLen.toNat = bytes.length ∧
      (∀ j, j < bytes.length → Memory.read t.chunk j = bytes[j]?) ∧
      (∀ j, bytes.length ≤ j → Memory.read t.chunk j = Memory.read s.chunk j) ∧
      t = { s with dataLen := t.dataLen, chunk := t.chunk }

/-- R72, R37, R48: an out-read while idle returns a defined word below OUT_CAP, whatever OUT_LEN is, and changes nothing but
the read port; a cell never written is refused, never zero. While a command runs a word at or beyond m_l, which it does not
write, reads as while idle; a word below m_l reads whole, as its old contents or as the sample the command writes there (R143,
U7), never as anything else. That an undefined old word may be refused, and how old or new is drawn, is the model's choice
(log 11, log 25). -/
def Obligations.OutReadReturnsTheWord : Prop :=
  ∀ (s : State) (k : BitVec 65),
    (fits s.params.outCap (k.toNat + 1) = false → performTxn (.outRead k) s = .refused .outCapacityExceeded) ∧
    (fits s.params.outCap (k.toNat + 1) = true →
      (s.status.busy = false →
        (∀ w, Memory.read s.out k.toNat = some w → performTxn (.outRead k) s = .next { s with orData := w }) ∧
        (Memory.read s.out k.toNat = none → performTxn (.outRead k) s = .refused .undefinedOutCell)) ∧
      (∀ (q : Running) (bytes : Nat → Option Byte), s.status.busy = true →
        (s.seq = .run q ∧ ∀ i, bytes i = Memory.read s.chunk i) ∨
          (s.seq = .load q ∧ ∀ i, bytes i = Memory.read s.src (q.seekL + i)) →
        (q.mL ≤ k.toNat →
          (∀ w, Memory.read s.out k.toNat = some w →
            ∃ t, performTxn (.outRead k) s = .next t ∧ t.orData = w ∧
              t = { s with orData := t.orData, freeCount := t.freeCount }) ∧
          (Memory.read s.out k.toNat = none → performTxn (.outRead k) s = .refused .undefinedOutCell)) ∧
        (k.toNat < q.mL →
          (∃ t, performTxn (.outRead k) s = .next t ∧
            t = { s with orData := t.orData, freeCount := t.freeCount } ∧
            (Memory.read q.before.out k.toNat = some t.orData ∨
              ∃ b0 b1 b2, bytes (3 * (k.toNat / 2)) = some b0 ∧ bytes (3 * (k.toNat / 2) + 1) = some b1 ∧
                bytes (3 * (k.toNat / 2) + 2) = some b2 ∧
                t.orData = if k.toNat % 2 = 0 then sampleEven b0 b1 else sampleOdd b1 b2)) ∨
          (Memory.read q.before.out k.toNat = none ∧ performTxn (.outRead k) s = .refused .undefinedOutCell))))

/-- R58, R145, U8: between commands the environment may replace the source freely. While busy every other source is refused,
one of another length and one of other bytes at the same length; the source already there is no change and goes through.
Refusing any different source, also outside the frame, is the model's choice (log 10). -/
def Obligations.TheSourceChangesOnlyBetweenCommands : Prop :=
  ∀ (s : State) (len : BitVec 64) (cells : List (Nat × Byte)),
    (s.status.busy = false →
      ∃ t, performEvent (.setSource len cells) s = .next t ∧ t.srcLen = len ∧
        (∀ a b, Memory.read t.src a = some b → a < len.toNat ∧ (a, b) ∈ cells) ∧
        (∀ a b, (a, b) ∈ cells → a < len.toNat → Memory.read t.src a ≠ none) ∧
        t = { s with srcLen := t.srcLen, src := t.src }) ∧
    (s.status.busy = true → ¬(len = s.srcLen ∧ Memory.ofCells len.toNat cells = s.src) →
      performEvent (.setSource len cells) s = .refused .sourceChangedWhileBusy) ∧
    (s.status.busy = true → (∃ a, Memory.read (Memory.ofCells len.toNat cells) a ≠ Memory.read s.src a) →
      performEvent (.setSource len cells) s = .refused .sourceChangedWhileBusy) ∧
    (len = s.srcLen → Memory.ofCells len.toNat cells = s.src → performEvent (.setSource len cells) s = .next s)

/-! ### Reset -/

/-- R42: after reset every register reads 0, SRC_LEN shows its port, the block is idle, and no cell of CHUNK or OUT is
defined. -/
def Obligations.ResetClearsEveryRegister : Prop :=
  readReg State.reset .srcLen = State.reset.srcLen.setWidth 129 ∧ (∀ g : Reg, g ≠ .srcLen → readReg State.reset g = 0) ∧ statusByte State.reset.status = 0x00 ∧
    State.reset.seq = .idle ∧ (∀ j, Memory.read State.reset.chunk j = none) ∧
    ∀ k, Memory.read State.reset.out k = none

/-- R139, R140: the reset event, in any state and also while a command runs, puts every register at its reset value, drops
the command, leaves every cell of CHUNK and OUT undefined, and does not touch the source. That it also keeps the agenda is
the model's choice (log 24). -/
def Obligations.ResetEventAbandonsTheCommand : Prop :=
  ∀ s : State, ∃ t, performEvent .reset s = .next t ∧ (∀ g : Reg, g ≠ .srcLen → readReg t g = 0) ∧
    t.seq = .idle ∧ (∀ j, Memory.read t.chunk j = none) ∧ (∀ k, Memory.read t.out k = none) ∧ t.src = s.src ∧
    t.srcLen = s.srcLen ∧ readReg t .srcLen = readReg s .srcLen ∧ t.srcAck = s.srcAck ∧ t.params = s.params ∧
    t.agenda = s.agenda

/-! ### The step -/

/-- R69, R111, R113, R115: when the agenda's head is a `WR CMD` whose byte decodes to an instruction and the block is idle,
the step performs the instruction, whole in the big-step reading, started in the micro-step reading; while busy it drops it. -/
def Obligations.StepRunsThePresentedCommand : Prop :=
  ∀ (s : State) (v : BitVec 129) (tail : List Event) (i : Instr) (rest : List Byte),
    s.agenda = .host (.writeReg 0x7 v) :: tail → decode .cmd8 [v.setWidth 8] = .instr i rest →
    (s.status.busy = false → s.params.reading = .bigStep → step s = exec i { s with agenda := tail }) ∧
    (s.status.busy = false → s.params.reading = .microStep → step s = startCommand i { s with agenda := tail }) ∧
    (s.status.busy = true → step s = .next { s with agenda := tail })

/-- R119, R125: a reserved byte presented while the block is idle is IllegalCommand: STATUS is 0x46 and nothing else
changes; while busy it is dropped. -/
def Obligations.StepReportsIllegalCommands : Prop :=
  ∀ (s : State) (v : BitVec 129) (tail : List Event),
    s.agenda = .host (.writeReg 0x7 v) :: tail → 0x05 ≤ v.toNat % 256 →
    (s.status.busy = false → ∃ t, step s = .next t ∧ statusByte t.status = 0x46 ∧
      t = { s with agenda := tail, status := t.status, seq := .idle }) ∧
    (s.status.busy = true → step s = .next { s with agenda := tail })

/-- R89, R30: when the kernel runs with one lane and the host does nothing, the step executes the triplet at CHUNK[3*TI] and
then tests for the end of the command. -/
def Obligations.StepRunsTheTripletAtTheIndex : Prop :=
  ∀ (s : State) (r : Running) (b0 b1 b2 : Byte) (i : Instr) (rest : List Byte),
    s.agenda = [] → s.seq = .run r → r.ti < r.nL → s.params.lanes = 1 →
    Memory.read s.chunk (3 * r.ti) = some b0 → Memory.read s.chunk (3 * r.ti + 1) = some b1 →
    Memory.read s.chunk (3 * r.ti + 2) = some b2 → decode .data24 [b0, b1, b2] = .instr i rest →
    step s = andThen (exec i { s with seq := .run { r with laneRegs := [] } }) completeRun

/-- R138: an idle block to which nothing happens waits with all state retained. -/
def Obligations.IdleBlockWaits : Prop := ∀ s : State, s.agenda = [] → s.seq = .idle → step s = .next s

/-- R33: the block only reads the source: no step changes SRC or SRC_LEN unless the environment presents another. -/
def Obligations.StepNeverWritesTheSource : Prop :=
  ∀ s t : State, step s = .next t → (∀ len cells, s.agenda.head? ≠ some (.setSource len cells)) →
    t.src = s.src ∧ t.srcLen = s.srcLen ∧ t.params = s.params

/-! ### Micro-steps and the big step -/

/-- R113: UNPACK started and run by micro-steps to its end, with any number of lanes, has the outcome of the one big step.
At least one triplet a move, and with it the number of moves, is the model's sequencing (log 23). -/
def Obligations.MicroStepsOfUnpackReachTheBigStep : Prop :=
  ∀ (s : State) (k : Nat), s.status.busy = false → s.params.wellFormed = true →
    s.dataLen.toNat / 3 ≤ k →
    andThen (startCommand .unpack s) (runTicks k) = exec .unpack s

/-- R115, R104: in LOAD a source byte that arrives is stored at CHUNK[LJ] and LJ advances by one, which at `LJ = fbs_l` also
writes DATA_LEN and OUT_LEN, puts TI at 0 and enters RUN; nothing else changes. R113: DECODE started and run by micro-steps to
its end, with any number of lanes, has the outcome of the one big step, which on a source that does not answer is a load that
waits (log 8). One byte a move, and with it the number of moves, is the model's choice (log 23). -/
def Obligations.MicroStepsOfDecodeReachTheBigStep : Prop :=
  (∀ (s : State) (r : Running) (b : Byte), s.seq = .load r → s.srcAck = true →
    Memory.read s.src (r.seekL + r.lj) = some b →
    ∃ t, advance s = .next t ∧ Memory.read t.chunk r.lj = some b ∧
      (∀ j, j ≠ r.lj → Memory.read t.chunk j = Memory.read s.chunk j) ∧
      (r.lj + 1 ≠ r.fbsL → t = { s with chunk := t.chunk, seq := .load { r with lj := r.lj + 1 } }) ∧
      (r.lj + 1 = r.fbsL →
        t = { s with
              chunk := t.chunk
              dataLen := BitVec.ofNat 65 r.fbsL
              outLen := BitVec.ofNat 65 r.mL
              seq := .run { r with lj := r.lj + 1, ti := 0 } })) ∧
  ∀ (s : State) (n f k : Nat), n = s.rows.toNat * s.columns.toNat → f = n * 3 / 2 → s.status.busy = false →
    s.params.wellFormed = true → f + f / 3 ≤ k →
    andThen (startCommand .decode s) (runTicks k) = exec .decode s

/-- R149: from every legal state whose source answers and whose data are there, the running command ends with STATUS = 0x02
after finitely many micro-steps, at most one per byte to load and one per triplet (that bound is the model's sequencing, log
23). While the source does not answer, a load waits: BUSY stays 1 and no micro-step, however many, changes anything (log 8);
a command in RUN needs no answer and ends. -/
def Obligations.EveryRunningCommandEnds : Prop :=
  (∀ (s : State) (k : Nat), s.Inv → s.srcAck = true → Supplied s → s.seq ≠ .idle → remainingMoves s ≤ k →
    ∃ t, runTicks k s = .next t ∧ t.seq = .idle ∧ statusByte t.status = 0x02) ∧
  (∀ (s : State) (r : Running) (k : Nat), s.Inv → s.seq = .load r → s.srcAck = false →
    runTicks k s = .next s ∧ s.status.busy = true) ∧
  ∀ (s : State) (r : Running) (k : Nat), s.Inv → s.seq = .run r → Supplied s → r.nL - r.ti ≤ k →
    ∃ t, runTicks k s = .next t ∧ t.seq = .idle ∧ statusByte t.status = 0x02

/-! ### Invariants -/

/-- R25: under its invariant STATUS takes one of exactly seven values. -/
def Obligations.StatusTakesSevenValues : Prop :=
  ∀ s : State, s.Inv → statusByte s.status ∈ [(0x00 : Byte), 0x01, 0x02, 0x16, 0x26, 0x36, 0x46]

/-- R39, R30: in a legal state every latch and counter of the running command fits its width. -/
def Obligations.HiddenStateFitsItsWidths : Prop :=
  ∀ (s : State) (r : Running), s.Inv → runningOf s = some r → RunningFits r

/-- The invariant holds after reset. -/
def Obligations.ResetSatisfiesTheInvariant : Prop := State.reset.Inv

/-- Every step keeps the invariant: the memories stay canonical and within their bounds, every word of OUT stays a 12-bit
value, STATUS stays legal, BUSY stays 1 exactly while a command runs, the latches stay those of the frame, and while a
command runs OUT is a mixture of whole old and new words. -/
def Obligations.StepKeepsTheInvariant : Prop := ∀ s t : State, s.Inv → step s = .next t → t.Inv
end

