-- ==== Sys2Proof/Laws/State.lean ====
section
/-! SUPPORT. One lemma per field of State for each shared update, and the flags of each STATUS computation: no later proof
unfolds a record update. -/

namespace Sys2Proof.Machine

section ForgetOutcome
variable (s : State)
@[simp] theorem forgetOutcome_rows : (forgetOutcome s).rows = s.rows := rfl
@[simp] theorem forgetOutcome_columns : (forgetOutcome s).columns = s.columns := rfl
@[simp] theorem forgetOutcome_bitDepth : (forgetOutcome s).bitDepth = s.bitDepth := rfl
@[simp] theorem forgetOutcome_frameCount : (forgetOutcome s).frameCount = s.frameCount := rfl
@[simp] theorem forgetOutcome_frameIndex : (forgetOutcome s).frameIndex = s.frameIndex := rfl
@[simp] theorem forgetOutcome_dataLen : (forgetOutcome s).dataLen = s.dataLen := rfl
@[simp] theorem forgetOutcome_outLen : (forgetOutcome s).outLen = s.outLen := rfl
@[simp] theorem forgetOutcome_status : (forgetOutcome s).status = statusForgotten s.status := rfl
@[simp] theorem forgetOutcome_frameByteSize : (forgetOutcome s).frameByteSize = s.frameByteSize := rfl
@[simp] theorem forgetOutcome_seekOffset : (forgetOutcome s).seekOffset = s.seekOffset := rfl
@[simp] theorem forgetOutcome_chunk : (forgetOutcome s).chunk = s.chunk := rfl
@[simp] theorem forgetOutcome_out : (forgetOutcome s).out = s.out := rfl
@[simp] theorem forgetOutcome_seq : (forgetOutcome s).seq = s.seq := rfl
@[simp] theorem forgetOutcome_srcLen : (forgetOutcome s).srcLen = s.srcLen := rfl
@[simp] theorem forgetOutcome_src : (forgetOutcome s).src = s.src := rfl
@[simp] theorem forgetOutcome_srcAck : (forgetOutcome s).srcAck = s.srcAck := rfl
@[simp] theorem forgetOutcome_hRdata : (forgetOutcome s).hRdata = s.hRdata := rfl
@[simp] theorem forgetOutcome_orData : (forgetOutcome s).orData = s.orData := rfl
@[simp] theorem forgetOutcome_params : (forgetOutcome s).params = s.params := rfl
@[simp] theorem forgetOutcome_agenda : (forgetOutcome s).agenda = s.agenda := rfl
@[simp] theorem forgetOutcome_freeCount : (forgetOutcome s).freeCount = s.freeCount := rfl
end ForgetOutcome

section Accept
variable (s : State)
@[simp] theorem accept_rows : (accept s).rows = s.rows := rfl
@[simp] theorem accept_columns : (accept s).columns = s.columns := rfl
@[simp] theorem accept_bitDepth : (accept s).bitDepth = s.bitDepth := rfl
@[simp] theorem accept_frameCount : (accept s).frameCount = s.frameCount := rfl
@[simp] theorem accept_frameIndex : (accept s).frameIndex = s.frameIndex := rfl
@[simp] theorem accept_dataLen : (accept s).dataLen = s.dataLen := rfl
@[simp] theorem accept_outLen : (accept s).outLen = s.outLen := rfl
@[simp] theorem accept_status : (accept s).status = statusAccepted s.status := rfl
@[simp] theorem accept_frameByteSize : (accept s).frameByteSize = s.frameByteSize := rfl
@[simp] theorem accept_seekOffset : (accept s).seekOffset = s.seekOffset := rfl
@[simp] theorem accept_chunk : (accept s).chunk = s.chunk := rfl
@[simp] theorem accept_out : (accept s).out = s.out := rfl
@[simp] theorem accept_seq : (accept s).seq = s.seq := rfl
@[simp] theorem accept_srcLen : (accept s).srcLen = s.srcLen := rfl
@[simp] theorem accept_src : (accept s).src = s.src := rfl
@[simp] theorem accept_srcAck : (accept s).srcAck = s.srcAck := rfl
@[simp] theorem accept_hRdata : (accept s).hRdata = s.hRdata := rfl
@[simp] theorem accept_orData : (accept s).orData = s.orData := rfl
@[simp] theorem accept_params : (accept s).params = s.params := rfl
@[simp] theorem accept_agenda : (accept s).agenda = s.agenda := rfl
@[simp] theorem accept_freeCount : (accept s).freeCount = s.freeCount := rfl
end Accept

section Finish
variable (s : State)
@[simp] theorem finish_rows : (finish s).rows = s.rows := rfl
@[simp] theorem finish_columns : (finish s).columns = s.columns := rfl
@[simp] theorem finish_bitDepth : (finish s).bitDepth = s.bitDepth := rfl
@[simp] theorem finish_frameCount : (finish s).frameCount = s.frameCount := rfl
@[simp] theorem finish_frameIndex : (finish s).frameIndex = s.frameIndex := rfl
@[simp] theorem finish_dataLen : (finish s).dataLen = s.dataLen := rfl
@[simp] theorem finish_outLen : (finish s).outLen = s.outLen := rfl
@[simp] theorem finish_status : (finish s).status = statusDone s.status := rfl
@[simp] theorem finish_frameByteSize : (finish s).frameByteSize = s.frameByteSize := rfl
@[simp] theorem finish_seekOffset : (finish s).seekOffset = s.seekOffset := rfl
@[simp] theorem finish_chunk : (finish s).chunk = s.chunk := rfl
@[simp] theorem finish_out : (finish s).out = s.out := rfl
@[simp] theorem finish_seq : (finish s).seq = .idle := rfl
@[simp] theorem finish_srcLen : (finish s).srcLen = s.srcLen := rfl
@[simp] theorem finish_src : (finish s).src = s.src := rfl
@[simp] theorem finish_srcAck : (finish s).srcAck = s.srcAck := rfl
@[simp] theorem finish_hRdata : (finish s).hRdata = s.hRdata := rfl
@[simp] theorem finish_orData : (finish s).orData = s.orData := rfl
@[simp] theorem finish_params : (finish s).params = s.params := rfl
@[simp] theorem finish_agenda : (finish s).agenda = s.agenda := rfl
@[simp] theorem finish_freeCount : (finish s).freeCount = s.freeCount := rfl
end Finish

section RaiseError
variable (e : ErrorKind) (s : State)
@[simp] theorem raiseError_rows : (raiseError e s).rows = s.rows := rfl
@[simp] theorem raiseError_columns : (raiseError e s).columns = s.columns := rfl
@[simp] theorem raiseError_bitDepth : (raiseError e s).bitDepth = s.bitDepth := rfl
@[simp] theorem raiseError_frameCount : (raiseError e s).frameCount = s.frameCount := rfl
@[simp] theorem raiseError_frameIndex : (raiseError e s).frameIndex = s.frameIndex := rfl
@[simp] theorem raiseError_dataLen : (raiseError e s).dataLen = s.dataLen := rfl
@[simp] theorem raiseError_outLen : (raiseError e s).outLen = s.outLen := rfl
@[simp] theorem raiseError_status : (raiseError e s).status = statusError e := rfl
@[simp] theorem raiseError_frameByteSize : (raiseError e s).frameByteSize = s.frameByteSize := rfl
@[simp] theorem raiseError_seekOffset : (raiseError e s).seekOffset = s.seekOffset := rfl
@[simp] theorem raiseError_chunk : (raiseError e s).chunk = s.chunk := rfl
@[simp] theorem raiseError_out : (raiseError e s).out = s.out := rfl
@[simp] theorem raiseError_seq : (raiseError e s).seq = .idle := rfl
@[simp] theorem raiseError_srcLen : (raiseError e s).srcLen = s.srcLen := rfl
@[simp] theorem raiseError_src : (raiseError e s).src = s.src := rfl
@[simp] theorem raiseError_srcAck : (raiseError e s).srcAck = s.srcAck := rfl
@[simp] theorem raiseError_hRdata : (raiseError e s).hRdata = s.hRdata := rfl
@[simp] theorem raiseError_orData : (raiseError e s).orData = s.orData := rfl
@[simp] theorem raiseError_params : (raiseError e s).params = s.params := rfl
@[simp] theorem raiseError_agenda : (raiseError e s).agenda = s.agenda := rfl
@[simp] theorem raiseError_freeCount : (raiseError e s).freeCount = s.freeCount := rfl
end RaiseError

section SetFrameRegs
variable (f : FrameRange) (s : State)
@[simp] theorem setFrameRegs_rows : (setFrameRegs f s).rows = s.rows := rfl
@[simp] theorem setFrameRegs_columns : (setFrameRegs f s).columns = s.columns := rfl
@[simp] theorem setFrameRegs_bitDepth : (setFrameRegs f s).bitDepth = s.bitDepth := rfl
@[simp] theorem setFrameRegs_frameCount : (setFrameRegs f s).frameCount = s.frameCount := rfl
@[simp] theorem setFrameRegs_frameIndex : (setFrameRegs f s).frameIndex = s.frameIndex := rfl
@[simp] theorem setFrameRegs_dataLen : (setFrameRegs f s).dataLen = s.dataLen := rfl
@[simp] theorem setFrameRegs_outLen : (setFrameRegs f s).outLen = s.outLen := rfl
@[simp] theorem setFrameRegs_status : (setFrameRegs f s).status = s.status := rfl
@[simp] theorem setFrameRegs_frameByteSize : (setFrameRegs f s).frameByteSize = BitVec.ofNat 65 f.bytes := rfl
@[simp] theorem setFrameRegs_seekOffset : (setFrameRegs f s).seekOffset = BitVec.ofNat 129 f.offset := rfl
@[simp] theorem setFrameRegs_chunk : (setFrameRegs f s).chunk = s.chunk := rfl
@[simp] theorem setFrameRegs_out : (setFrameRegs f s).out = s.out := rfl
@[simp] theorem setFrameRegs_seq : (setFrameRegs f s).seq = s.seq := rfl
@[simp] theorem setFrameRegs_srcLen : (setFrameRegs f s).srcLen = s.srcLen := rfl
@[simp] theorem setFrameRegs_src : (setFrameRegs f s).src = s.src := rfl
@[simp] theorem setFrameRegs_srcAck : (setFrameRegs f s).srcAck = s.srcAck := rfl
@[simp] theorem setFrameRegs_hRdata : (setFrameRegs f s).hRdata = s.hRdata := rfl
@[simp] theorem setFrameRegs_orData : (setFrameRegs f s).orData = s.orData := rfl
@[simp] theorem setFrameRegs_params : (setFrameRegs f s).params = s.params := rfl
@[simp] theorem setFrameRegs_agenda : (setFrameRegs f s).agenda = s.agenda := rfl
@[simp] theorem setFrameRegs_freeCount : (setFrameRegs f s).freeCount = s.freeCount := rfl
end SetFrameRegs

section SetLengths
variable (l m : Nat) (s : State)
@[simp] theorem setLengths_rows : (setLengths l m s).rows = s.rows := rfl
@[simp] theorem setLengths_columns : (setLengths l m s).columns = s.columns := rfl
@[simp] theorem setLengths_bitDepth : (setLengths l m s).bitDepth = s.bitDepth := rfl
@[simp] theorem setLengths_frameCount : (setLengths l m s).frameCount = s.frameCount := rfl
@[simp] theorem setLengths_frameIndex : (setLengths l m s).frameIndex = s.frameIndex := rfl
@[simp] theorem setLengths_dataLen : (setLengths l m s).dataLen = BitVec.ofNat 65 l := rfl
@[simp] theorem setLengths_outLen : (setLengths l m s).outLen = BitVec.ofNat 65 m := rfl
@[simp] theorem setLengths_status : (setLengths l m s).status = s.status := rfl
@[simp] theorem setLengths_frameByteSize : (setLengths l m s).frameByteSize = s.frameByteSize := rfl
@[simp] theorem setLengths_seekOffset : (setLengths l m s).seekOffset = s.seekOffset := rfl
@[simp] theorem setLengths_chunk : (setLengths l m s).chunk = s.chunk := rfl
@[simp] theorem setLengths_out : (setLengths l m s).out = s.out := rfl
@[simp] theorem setLengths_seq : (setLengths l m s).seq = s.seq := rfl
@[simp] theorem setLengths_srcLen : (setLengths l m s).srcLen = s.srcLen := rfl
@[simp] theorem setLengths_src : (setLengths l m s).src = s.src := rfl
@[simp] theorem setLengths_srcAck : (setLengths l m s).srcAck = s.srcAck := rfl
@[simp] theorem setLengths_hRdata : (setLengths l m s).hRdata = s.hRdata := rfl
@[simp] theorem setLengths_orData : (setLengths l m s).orData = s.orData := rfl
@[simp] theorem setLengths_params : (setLengths l m s).params = s.params := rfl
@[simp] theorem setLengths_agenda : (setLengths l m s).agenda = s.agenda := rfl
@[simp] theorem setLengths_freeCount : (setLengths l m s).freeCount = s.freeCount := rfl
end SetLengths

section EnterLoad
variable (f : FrameRange) (s : State)
@[simp] theorem enterLoad_rows : (enterLoad f s).rows = s.rows := rfl
@[simp] theorem enterLoad_columns : (enterLoad f s).columns = s.columns := rfl
@[simp] theorem enterLoad_bitDepth : (enterLoad f s).bitDepth = s.bitDepth := rfl
@[simp] theorem enterLoad_frameCount : (enterLoad f s).frameCount = s.frameCount := rfl
@[simp] theorem enterLoad_frameIndex : (enterLoad f s).frameIndex = s.frameIndex := rfl
@[simp] theorem enterLoad_dataLen : (enterLoad f s).dataLen = s.dataLen := rfl
@[simp] theorem enterLoad_outLen : (enterLoad f s).outLen = s.outLen := rfl
@[simp] theorem enterLoad_chunk : (enterLoad f s).chunk = s.chunk := rfl
@[simp] theorem enterLoad_out : (enterLoad f s).out = s.out := rfl
@[simp] theorem enterLoad_srcLen : (enterLoad f s).srcLen = s.srcLen := rfl
@[simp] theorem enterLoad_src : (enterLoad f s).src = s.src := rfl
@[simp] theorem enterLoad_srcAck : (enterLoad f s).srcAck = s.srcAck := rfl
@[simp] theorem enterLoad_hRdata : (enterLoad f s).hRdata = s.hRdata := rfl
@[simp] theorem enterLoad_orData : (enterLoad f s).orData = s.orData := rfl
@[simp] theorem enterLoad_params : (enterLoad f s).params = s.params := rfl
@[simp] theorem enterLoad_agenda : (enterLoad f s).agenda = s.agenda := rfl
@[simp] theorem enterLoad_freeCount : (enterLoad f s).freeCount = s.freeCount := rfl
@[simp] theorem enterLoad_status : (enterLoad f s).status = statusAccepted s.status := rfl
@[simp] theorem enterLoad_frameByteSize : (enterLoad f s).frameByteSize = BitVec.ofNat 65 f.bytes := rfl
@[simp] theorem enterLoad_seekOffset : (enterLoad f s).seekOffset = BitVec.ofNat 129 f.offset := rfl
@[simp] theorem enterLoad_seq :
    (enterLoad f s).seq = .load
      { op := .decode, fbsL := f.bytes, seekL := f.offset, nL := f.bytes / 3, mL := f.pixels,
        lj := 0, ti := 0, laneRegs := [], before := beforeOf s } := rfl
end EnterLoad

section
variable (b : Before) (s : State)

@[simp] theorem restoreRegs_rows : (restoreRegs b s).rows = s.rows := rfl
@[simp] theorem restoreRegs_columns : (restoreRegs b s).columns = s.columns := rfl
@[simp] theorem restoreRegs_bitDepth : (restoreRegs b s).bitDepth = s.bitDepth := rfl
@[simp] theorem restoreRegs_frameCount : (restoreRegs b s).frameCount = s.frameCount := rfl
@[simp] theorem restoreRegs_frameIndex : (restoreRegs b s).frameIndex = s.frameIndex := rfl
@[simp] theorem restoreRegs_dataLen : (restoreRegs b s).dataLen = b.dataLen := rfl
@[simp] theorem restoreRegs_outLen : (restoreRegs b s).outLen = b.outLen := rfl
@[simp] theorem restoreRegs_status : (restoreRegs b s).status = s.status := rfl
@[simp] theorem restoreRegs_frameByteSize : (restoreRegs b s).frameByteSize = b.frameByteSize := rfl
@[simp] theorem restoreRegs_seekOffset : (restoreRegs b s).seekOffset = b.seekOffset := rfl
@[simp] theorem restoreRegs_chunk : (restoreRegs b s).chunk = s.chunk := rfl
@[simp] theorem restoreRegs_out : (restoreRegs b s).out = s.out := rfl
@[simp] theorem restoreRegs_seq : (restoreRegs b s).seq = s.seq := rfl
@[simp] theorem restoreRegs_srcLen : (restoreRegs b s).srcLen = s.srcLen := rfl
@[simp] theorem restoreRegs_src : (restoreRegs b s).src = s.src := rfl
@[simp] theorem restoreRegs_srcAck : (restoreRegs b s).srcAck = s.srcAck := rfl
@[simp] theorem restoreRegs_hRdata : (restoreRegs b s).hRdata = s.hRdata := rfl
@[simp] theorem restoreRegs_orData : (restoreRegs b s).orData = s.orData := rfl
@[simp] theorem restoreRegs_params : (restoreRegs b s).params = s.params := rfl
@[simp] theorem restoreRegs_agenda : (restoreRegs b s).agenda = s.agenda := rfl
@[simp] theorem restoreRegs_freeCount : (restoreRegs b s).freeCount = s.freeCount := rfl

@[simp] theorem beforeOf_dataLen : (beforeOf s).dataLen = s.dataLen := rfl
@[simp] theorem beforeOf_outLen : (beforeOf s).outLen = s.outLen := rfl
@[simp] theorem beforeOf_frameByteSize : (beforeOf s).frameByteSize = s.frameByteSize := rfl
@[simp] theorem beforeOf_seekOffset : (beforeOf s).seekOffset = s.seekOffset := rfl
@[simp] theorem beforeOf_out : (beforeOf s).out = s.out := rfl
@[simp] theorem restoreRegs_beforeOf : restoreRegs (beforeOf s) s = s := rfl

end

@[simp] theorem statusForgotten_busy (st : Status) : (statusForgotten st).busy = st.busy := rfl
@[simp] theorem statusForgotten_done (st : Status) : (statusForgotten st).done = false := rfl
@[simp] theorem statusForgotten_err (st : Status) : (statusForgotten st).err = false := rfl
@[simp] theorem statusForgotten_errCode (st : Status) : (statusForgotten st).errCode = 0 := rfl

@[simp] theorem statusAccepted_busy (st : Status) : (statusAccepted st).busy = true := rfl
@[simp] theorem statusAccepted_done (st : Status) : (statusAccepted st).done = false := rfl
@[simp] theorem statusAccepted_err (st : Status) : (statusAccepted st).err = false := rfl
@[simp] theorem statusAccepted_errCode (st : Status) : (statusAccepted st).errCode = 0 := rfl

@[simp] theorem statusDone_busy (st : Status) : (statusDone st).busy = false := rfl
@[simp] theorem statusDone_done (st : Status) : (statusDone st).done = true := rfl
@[simp] theorem statusDone_err (st : Status) : (statusDone st).err = st.err := rfl
@[simp] theorem statusDone_errCode (st : Status) : (statusDone st).errCode = st.errCode := rfl

@[simp] theorem statusError_busy (e : ErrorKind) : (statusError e).busy = false := rfl
@[simp] theorem statusError_done (e : ErrorKind) : (statusError e).done = true := rfl
@[simp] theorem statusError_err (e : ErrorKind) : (statusError e).err = true := rfl
@[simp] theorem statusError_errCode (e : ErrorKind) : (statusError e).errCode = errorCode e := rfl

/-- A successful command ends with STATUS = 0x02 (R112). -/
@[simp] theorem statusByte_done_accepted (st : Status) : statusByte (statusDone (statusAccepted st)) = 0x02 := by
  simp [statusByte]

/-- The four error reports of R129: 0x16, 0x26, 0x36, 0x46. -/
theorem statusByte_error (e : ErrorKind) :
    statusByte (statusError e) =
      match e with
      | .precondition => 0x16
      | .shortRead => 0x26
      | .unsupportedFormat => 0x36
      | .illegalCommand => 0x46 := by cases e <;> rfl

@[simp] theorem statusByte_forgotten (st : Status) (h : st.busy = false) :
    statusByte (statusForgotten st) = 0x00 := by
  simp [statusByte, h]

@[simp] theorem andThen_next (s : State) (k : State → Outcome) : andThen (.next s) k = k s := rfl
@[simp] theorem andThen_fault (r : Fault) (k : State → Outcome) : andThen (.fault r) k = .fault r := rfl
@[simp] theorem andThen_refused (r : Refusal) (k : State → Outcome) : andThen (.refused r) k = .refused r := rfl

/-- What a sequence of two moves can do when it ends in a next state. -/
theorem andThen_eq_next {o : Outcome} {k : State → Outcome} {t : State} (h : andThen o k = .next t) :
    ∃ u, o = .next u ∧ k u = .next t := by
  cases o with
  | next u => exact ⟨u, rfl, h⟩
  | fault r => cases h
  | refused r => cases h

theorem andThen_assoc (o : Outcome) (k l : State → Outcome) :
    andThen (andThen o k) l = andThen o fun s => andThen (k s) l := by cases o <;> rfl

end Sys2Proof.Machine
end

