-- ==== Sys2Proof/Laws/Memory.lean ====
section
/-! SUPPORT. The laws of memories: read after write, the canonical form and its extensionality. -/

namespace Sys2Proof.Machine

variable {w : Nat}

@[simp] theorem Memory.read_nil (a : Nat) : Memory.read ([] : Memory w) a = none := rfl

@[simp] theorem Memory.read_write_same (m : Memory w) (a : Nat) (v : BitVec w) :
    Memory.read (Memory.write m a v) a = some v := by
  induction m with
  | nil => simp [Memory.write, Memory.read]
  | cons c m ih =>
    obtain ⟨b, u⟩ := c
    simp only [Memory.write]
    split_ifs with h1 h2
    · simp [Memory.read]
    · simp [Memory.read]
    · simp [Memory.read, h2, ih]

theorem Memory.read_write_other (m : Memory w) {a c : Nat} (v : BitVec w) (h : c ≠ a) :
    Memory.read (Memory.write m a v) c = Memory.read m c := by
  induction m with
  | nil => simp [Memory.write, Memory.read, h]
  | cons d m ih =>
    obtain ⟨b, u⟩ := d
    simp only [Memory.write]
    split_ifs with h1 h2
    · simp [Memory.read, h]
    · subst h2; simp [Memory.read, h]
    · simp only [Memory.read, ih]

/-- One read after one write, in one equation. -/
theorem Memory.read_write (m : Memory w) (a c : Nat) (v : BitVec w) :
    Memory.read (Memory.write m a v) c = if c = a then some v else Memory.read m c := by
  split_ifs with h
  · subst h; exact Memory.read_write_same m c v
  · exact Memory.read_write_other m v h

theorem Memory.wf_cons (a : Nat) (v : BitVec w) (m : Memory w) :
    Memory.wf ((a, v) :: m) = true ↔ (∀ c ∈ m, a < c.1) ∧ Memory.wf m = true := by
  simp [Memory.wf]

theorem Memory.mem_write {m : Memory w} {a : Nat} {v : BitVec w} {c : Nat × BitVec w}
    (h : c ∈ Memory.write m a v) : c = (a, v) ∨ c ∈ m := by
  induction m with
  | nil => simpa [Memory.write] using h
  | cons d m ih =>
    obtain ⟨b, u⟩ := d
    simp only [Memory.write] at h
    split_ifs at h with h1 h2
    · simpa using h
    · simp only [List.mem_cons] at h ⊢; tauto
    · simp only [List.mem_cons] at h ⊢
      rcases h with h | h
      · exact .inr (.inl h)
      · rcases ih h with h | h
        · exact .inl h
        · exact .inr (.inr h)

/-- A write keeps the canonical form. -/
theorem Memory.write_wf {m : Memory w} (a : Nat) (v : BitVec w) (h : Memory.wf m = true) :
    Memory.wf (Memory.write m a v) = true := by
  induction m with
  | nil => rfl
  | cons d m ih =>
    obtain ⟨b, u⟩ := d
    obtain ⟨hb, hm⟩ := (Memory.wf_cons b u m).1 h
    simp only [Memory.write]
    split_ifs with h1 h2
    · refine (Memory.wf_cons a v _).2 ⟨?_, h⟩
      intro c hc
      rcases List.mem_cons.1 hc with rfl | hc
      · exact h1
      · exact lt_trans h1 (hb c hc)
    · subst h2; exact (Memory.wf_cons a v m).2 ⟨hb, hm⟩
    · refine (Memory.wf_cons b u _).2 ⟨?_, ih hm⟩
      intro c hc
      rcases Memory.mem_write hc with rfl | hc
      · simp only; omega
      · exact hb c hc

theorem Memory.read_eq_none_of_lt {m : Memory w} {a : Nat} (h : ∀ c ∈ m, a < c.1) : Memory.read m a = none := by
  induction m with
  | nil => rfl
  | cons d m ih =>
    obtain ⟨b, u⟩ := d
    have hb : a < b := h (b, u) (by simp)
    rw [Memory.read, if_neg (by omega)]
    exact ih fun c hc => h c (by simp [hc])

/-- A value read from a memory stands in its list. -/
theorem Memory.mem_of_read {m : Memory w} {a : Nat} {v : BitVec w} (h : Memory.read m a = some v) : (a, v) ∈ m := by
  induction m with
  | nil => cases h
  | cons d m ih =>
    obtain ⟨b, u⟩ := d
    simp only [Memory.read] at h
    split_ifs at h with h1
    · cases h; simp [h1]
    · exact List.mem_cons_of_mem _ (ih h)

/-- Canonical memories that read alike are equal data. -/
theorem Memory.ext_of_wf {m n : Memory w} (hm : Memory.wf m = true) (hn : Memory.wf n = true)
    (h : ∀ a, Memory.read m a = Memory.read n a) : m = n := by
  induction m generalizing n with
  | nil =>
    cases n with
    | nil => rfl
    | cons d n => simpa [Memory.read] using h d.1
  | cons c m ih =>
    obtain ⟨a, u⟩ := c
    obtain ⟨ha, hm'⟩ := (Memory.wf_cons a u m).1 hm
    cases n with
    | nil => simpa [Memory.read] using h a
    | cons d n =>
      obtain ⟨b, v⟩ := d
      obtain ⟨hb, hn'⟩ := (Memory.wf_cons b v n).1 hn
      have key : a = b := by
        rcases lt_trichotomy a b with hab | hab | hab
        · have e := h a
          rw [Memory.read_eq_none_of_lt (m := (b, v) :: n)] at e
          · simp [Memory.read] at e
          · intro c hc
            rcases List.mem_cons.1 hc with rfl | hc
            · exact hab
            · exact lt_trans hab (hb c hc)
        · exact hab
        · have e := h b
          rw [Memory.read_eq_none_of_lt (m := (a, u) :: m)] at e
          · simp [Memory.read] at e
          · intro c hc
            rcases List.mem_cons.1 hc with rfl | hc
            · exact hab
            · exact lt_trans hab (ha c hc)
      subst key
      have huv : u = v := by simpa [Memory.read] using h a
      subst huv
      congr 1
      refine ih hm' hn' fun c => ?_
      have e := h c
      simp only [Memory.read] at e
      split_ifs at e with hc
      · subst hc
        rw [Memory.read_eq_none_of_lt ha, Memory.read_eq_none_of_lt hb]
      · exact e

/-- Writes at different indices commute in a canonical memory. -/
theorem Memory.write_comm {m : Memory w} {a b : Nat} (u v : BitVec w) (hm : Memory.wf m = true) (h : a ≠ b) :
    Memory.write (Memory.write m a u) b v = Memory.write (Memory.write m b v) a u := by
  refine Memory.ext_of_wf (Memory.write_wf _ _ (Memory.write_wf _ _ hm))
    (Memory.write_wf _ _ (Memory.write_wf _ _ hm)) fun c => ?_
  simp only [Memory.read_write]
  split_ifs <;> first | rfl | omega

/-- Writing what a canonical memory already reads changes nothing. -/
theorem Memory.write_self {m : Memory w} {a : Nat} {v : BitVec w} (hm : Memory.wf m = true)
    (h : Memory.read m a = some v) : Memory.write m a v = m := by
  refine Memory.ext_of_wf (Memory.write_wf _ _ hm) hm fun c => ?_
  rw [Memory.read_write]
  split_ifs with hc
  · subst hc; exact h.symm
  · rfl

theorem Memory.foldl_write_wf (cells : List (Nat × BitVec w)) {m : Memory w} (h : Memory.wf m = true) :
    Memory.wf (cells.foldl (fun m c => Memory.write m c.1 c.2) m) = true := by
  induction cells generalizing m with
  | nil => exact h
  | cons c cells ih => exact ih (Memory.write_wf _ _ h)

theorem Memory.read_foldl_write (cells : List (Nat × BitVec w)) (m : Memory w) (a : Nat) (v : BitVec w)
    (h : Memory.read (cells.foldl (fun m c => Memory.write m c.1 c.2) m) a = some v) :
    (a, v) ∈ cells ∨ Memory.read m a = some v := by
  induction cells generalizing m with
  | nil => exact .inr h
  | cons c cells ih =>
    obtain ⟨b, u⟩ := c
    rcases ih _ h with h | h
    · exact .inl (List.mem_cons_of_mem _ h)
    · rw [Memory.read_write] at h
      split_ifs at h with hb
      · cases h; subst hb; exact .inl (by simp)
      · exact .inr h

theorem Memory.read_foldl_write_ne_none (cells : List (Nat × BitVec w)) (m : Memory w) (a : Nat)
    (h : Memory.read m a ≠ none ∨ ∃ v, (a, v) ∈ cells) :
    Memory.read (cells.foldl (fun m c => Memory.write m c.1 c.2) m) a ≠ none := by
  induction cells generalizing m with
  | nil => simpa using h
  | cons c cells ih =>
    obtain ⟨b, u⟩ := c
    refine ih _ ?_
    by_cases hb : a = b
    · subst hb; exact .inl (by simp)
    · rcases h with h | ⟨v, hv⟩
      · exact .inl (by simpa [Memory.read_write, hb] using h)
      · rcases List.mem_cons.1 hv with e | hv
        · exact absurd (congrArg Prod.fst e) hb
        · exact .inr ⟨v, hv⟩

/-- The memory the environment presents is canonical. -/
theorem Memory.ofCells_wf (bound : Nat) (cells : List (Nat × BitVec w)) : Memory.wf (Memory.ofCells bound cells) = true :=
  Memory.foldl_write_wf _ rfl

/-- It holds only cells that were given and lie below the bound. -/
theorem Memory.of_read_ofCells {bound : Nat} {cells : List (Nat × BitVec w)} {a : Nat} {v : BitVec w}
    (h : Memory.read (Memory.ofCells bound cells) a = some v) : a < bound ∧ (a, v) ∈ cells := by
  rcases Memory.read_foldl_write _ _ _ _ h with h | h
  · simpa [and_comm] using h
  · cases h

/-- Every given cell below the bound is defined in it. -/
theorem Memory.read_ofCells_ne_none {bound : Nat} {cells : List (Nat × BitVec w)} {a : Nat} {v : BitVec w}
    (h : (a, v) ∈ cells) (hb : a < bound) : Memory.read (Memory.ofCells bound cells) a ≠ none :=
  Memory.read_foldl_write_ne_none _ _ _ (.inr ⟨v, by simp [h, hb]⟩)

end Sys2Proof.Machine
end

