-- ==== Sys2Proof/Laws/Kernel.lean ====
section
/-! SUPPORT. What the kernel's loop and the load can do: one specification lemma each, and the order of iterations. -/

namespace Sys2Proof.Machine

theorem tripletAt_eq_some {chunk : Memory 8} {i : Nat} {b0 b1 b2 : Byte} :
    tripletAt chunk i = some (b0, b1, b2) ↔
      Memory.read chunk (3 * i) = some b0 ∧ Memory.read chunk (3 * i + 1) = some b1 ∧
        Memory.read chunk (3 * i + 2) = some b2 := by
  simp only [tripletAt]
  split
  · simp_all
  · rename_i h
    constructor
    · intro e; cases e
    · rintro ⟨h0, h1, h2⟩; exact absurd h2 (h _ _ _ h0 h1)

/-- A triplet is defined exactly when its three cells are. -/
theorem tripletAt_ne_none {chunk : Memory 8} {i : Nat} :
    tripletAt chunk i ≠ none ↔ ∀ j, 3 * i ≤ j → j < 3 * (i + 1) → Memory.read chunk j ≠ none := by
  constructor
  · intro h j h1 h2
    obtain ⟨⟨b0, b1, b2⟩, e⟩ := Option.ne_none_iff_exists'.1 h
    obtain ⟨e0, e1, e2⟩ := tripletAt_eq_some.1 e
    have : j = 3 * i ∨ j = 3 * i + 1 ∨ j = 3 * i + 2 := by omega
    rcases this with rfl | rfl | rfl <;> simp [*]
  · intro h
    obtain ⟨b0, e0⟩ := Option.ne_none_iff_exists'.1 (h (3 * i) (by omega) (by omega))
    obtain ⟨b1, e1⟩ := Option.ne_none_iff_exists'.1 (h (3 * i + 1) (by omega) (by omega))
    obtain ⟨b2, e2⟩ := Option.ne_none_iff_exists'.1 (h (3 * i + 2) (by omega) (by omega))
    rw [tripletAt_eq_some.2 ⟨e0, e1, e2⟩]
    simp

theorem tripletAt_congr {c d : Memory 8} {i : Nat}
    (h : ∀ j, 3 * i ≤ j → j < 3 * (i + 1) → Memory.read c j = Memory.read d j) : tripletAt c i = tripletAt d i := by
  simp only [tripletAt, h (3 * i) (by omega) (by omega), h (3 * i + 1) (by omega) (by omega),
    h (3 * i + 2) (by omega) (by omega)]

theorem read_writePair (out : Memory 16) (i k : Nat) (e o : Word) :
    Memory.read (writePair out i e o) k =
      if k = 2 * i then some e else if k = 2 * i + 1 then some o else Memory.read out k := by
  simp only [writePair, Memory.read_write]
  split_ifs <;> first | rfl | omega

theorem writePair_wf {out : Memory 16} (i : Nat) (e o : Word) (h : Memory.wf out = true) :
    Memory.wf (writePair out i e o) = true := Memory.write_wf _ _ (Memory.write_wf _ _ h)

/-- One iteration writes `sample(2i)` and `sample(2i+1)` and nothing else. -/
theorem unpackOne_spec {chunk : Memory 8} {i : Nat} {out out' : Memory 16} (h : unpackOne chunk i out = some out') :
    (∀ k, Memory.read out' k = if k / 2 = i then sampleOf chunk k else Memory.read out k) ∧
      tripletAt chunk i ≠ none ∧ (Memory.wf out = true → Memory.wf out' = true) := by
  simp only [unpackOne] at h
  split at h
  · cases h
  · rename_i b0 b1 b2 e
    cases h
    refine ⟨fun k => ?_, by simp [e], writePair_wf _ _ _⟩
    rw [read_writePair]
    by_cases h0 : k = 2 * i
    · have : k / 2 = i := by omega
      simp [h0, sampleOf, e]
    · by_cases h1 : k = 2 * i + 1
      · have h2 : (2 * i + 1) / 2 = i := by omega
        have h3 : (2 * i + 1) % 2 = 1 := by omega
        simp [h1, sampleOf, h2, h3, e]
      · have : k / 2 ≠ i := by omega
        simp [h0, h1, this]

theorem unpackOne_eq_none {chunk : Memory 8} {i : Nat} {out : Memory 16} :
    unpackOne chunk i out = none ↔ tripletAt chunk i = none := by
  simp only [unpackOne]
  split <;> simp_all

theorem sampleOf_ne_none {chunk : Memory 8} {k : Nat} : sampleOf chunk k ≠ none ↔ tripletAt chunk (k / 2) ≠ none := by
  simp only [sampleOf]
  split
  · simp_all
  · split_ifs <;> simp_all

/-- Everything a range of iterations can do when it succeeds. -/
theorem unpackRange_spec {chunk : Memory 8} {n i : Nat} {out out' : Memory 16}
    (h : unpackRange chunk n i out = some out') :
    (∀ k, Memory.read out' k = if i ≤ k / 2 ∧ k / 2 < i + n then sampleOf chunk k else Memory.read out k) ∧
      (∀ j, i ≤ j → j < i + n → tripletAt chunk j ≠ none) ∧ (Memory.wf out = true → Memory.wf out' = true) := by
  induction n generalizing i out with
  | zero =>
    cases h
    refine ⟨fun k => ?_, fun j h1 h2 => by omega, id⟩
    rw [if_neg (by omega)]
  | succ n ih =>
    simp only [unpackRange] at h
    split at h
    · cases h
    · rename_i o e
      obtain ⟨r1, d1, w1⟩ := unpackOne_spec e
      obtain ⟨r2, d2, w2⟩ := ih h
      refine ⟨fun k => ?_, fun j h1 h2 => ?_, fun hw => w2 (w1 hw)⟩
      · rw [r2, r1]
        split_ifs <;> first | rfl | omega
      · by_cases hj : j = i
        · exact hj ▸ d1
        · exact d2 j (by omega) (by omega)

/-- A range of iterations succeeds exactly when all its triplets are defined. -/
theorem unpackRange_ne_none {chunk : Memory 8} {n i : Nat} {out : Memory 16} :
    unpackRange chunk n i out ≠ none ↔ ∀ j, i ≤ j → j < i + n → tripletAt chunk j ≠ none := by
  constructor
  · intro h
    obtain ⟨o, e⟩ := Option.ne_none_iff_exists'.1 h
    exact (unpackRange_spec e).2.1
  · intro h
    induction n generalizing i out with
    | zero => simp [unpackRange]
    | succ n ih =>
      simp only [unpackRange]
      split
      · rename_i e
        exact absurd (unpackOne_eq_none.1 e) (h i (by omega) (by omega))
      · exact ih fun j h1 h2 => h j (by omega) (by omega)

/-- In terms of cells: CHUNK[3i .. 3(i+n)-1] all defined. -/
theorem tripletsDefined_iff {chunk : Memory 8} {n i : Nat} :
    (∀ j, i ≤ j → j < i + n → tripletAt chunk j ≠ none) ↔
      ∀ j, 3 * i ≤ j → j < 3 * (i + n) → Memory.read chunk j ≠ none := by
  constructor
  · intro h j h1 h2
    exact tripletAt_ne_none.1 (h (j / 3) (by omega) (by omega)) j (by omega) (by omega)
  · intro h j h1 h2
    exact tripletAt_ne_none.2 fun a h3 h4 => h a (by omega) (by omega)

/-- A range is its first part followed by its second part. -/
theorem unpackRange_add (chunk : Memory 8) (p q i : Nat) (out : Memory 16) :
    unpackRange chunk (p + q) i out = (unpackRange chunk p i out).bind (unpackRange chunk q (i + p)) := by
  induction p generalizing i out with
  | zero => simp [unpackRange]
  | succ p ih =>
    rw [Nat.succ_add]
    simp only [unpackRange]
    split
    · rfl
    · rw [ih, Nat.add_assoc, Nat.add_comm 1 p]

/-- The kernel depends only on the cells it reads. -/
theorem unpackRange_congr {c d : Memory 8} {n i : Nat} (out : Memory 16)
    (h : ∀ j, 3 * i ≤ j → j < 3 * (i + n) → Memory.read c j = Memory.read d j) :
    unpackRange c n i out = unpackRange d n i out := by
  induction n generalizing i out with
  | zero => rfl
  | succ n ih =>
    have e : unpackOne c i out = unpackOne d i out := by
      simp only [unpackOne, tripletAt_congr (c := c) (d := d) (i := i) fun j h1 h2 => h j h1 (by omega)]
    simp only [unpackRange, e]
    split
    · rfl
    · exact ih _ fun j h1 h2 => h j (by omega) (by omega)

theorem unpackRange_eq_unpackList (chunk : Memory 8) (n i : Nat) (out : Memory 16) :
    unpackRange chunk n i out = unpackList chunk (List.range' i n) out := by
  induction n generalizing i out with
  | zero => rfl
  | succ n ih =>
    simp only [unpackRange, List.range'_succ, unpackList]
    split
    · rfl
    · exact ih _ _

theorem unpackList_append (chunk : Memory 8) (l m : List Nat) (out : Memory 16) :
    unpackList chunk (l ++ m) out = (unpackList chunk l out).bind (unpackList chunk m) := by
  induction l generalizing out with
  | nil => rfl
  | cons i l ih =>
    simp only [List.cons_append, unpackList]
    split
    · rfl
    · exact ih _

theorem unpackOne_wf {chunk : Memory 8} {i : Nat} {out out' : Memory 16} (h : unpackOne chunk i out = some out')
    (hw : Memory.wf out = true) : Memory.wf out' = true := (unpackOne_spec h).2.2 hw

/-- Everything a list of iterations can do when it succeeds. -/
theorem unpackList_spec {chunk : Memory 8} {l : List Nat} {out out' : Memory 16}
    (h : unpackList chunk l out = some out') :
    (∀ k, Memory.read out' k = if k / 2 ∈ l then sampleOf chunk k else Memory.read out k) ∧
      (∀ j ∈ l, tripletAt chunk j ≠ none) ∧ (Memory.wf out = true → Memory.wf out' = true) := by
  induction l generalizing out with
  | nil => cases h; simp
  | cons i l ih =>
    simp only [unpackList] at h
    split at h
    · cases h
    · rename_i o e
      obtain ⟨r1, d1, w1⟩ := unpackOne_spec e
      obtain ⟨r2, d2, w2⟩ := ih h
      refine ⟨fun k => ?_, ?_, fun hw => w2 (w1 hw)⟩
      · rw [r2, r1]
        by_cases h1 : k / 2 ∈ l <;> by_cases h2 : k / 2 = i <;> simp [h1, h2]
      · intro j hj
        rcases List.mem_cons.1 hj with rfl | hj
        · exact d1
        · exact d2 j hj

theorem unpackList_ne_none {chunk : Memory 8} {l : List Nat} {out : Memory 16} :
    unpackList chunk l out ≠ none ↔ ∀ j ∈ l, tripletAt chunk j ≠ none := by
  constructor
  · intro h
    obtain ⟨o, e⟩ := Option.ne_none_iff_exists'.1 h
    exact (unpackList_spec e).2.1
  · intro h
    induction l generalizing out with
    | nil => simp [unpackList]
    | cons i l ih =>
      simp only [unpackList]
      split
      · rename_i e
        exact absurd (unpackOne_eq_none.1 e) (h i (by simp))
      · exact ih fun j hj => h j (by simp [hj])

/-- Everything the load can do when it succeeds (R104). -/
theorem loadRange_spec {src : Memory 8} {offset n j : Nat} {chunk chunk' : Memory 8}
    (h : loadRange src offset n j chunk = some chunk') :
    (∀ a, Memory.read chunk' a =
        if j ≤ a ∧ a < j + n then Memory.read src (srcAddr offset a) else Memory.read chunk a) ∧
      (∀ a, j ≤ a → a < j + n → Memory.read src (srcAddr offset a) ≠ none) ∧
      (Memory.wf chunk = true → Memory.wf chunk' = true) := by
  induction n generalizing j chunk with
  | zero =>
    cases h
    refine ⟨fun k => ?_, fun j h1 h2 => by omega, id⟩
    rw [if_neg (by omega)]
  | succ n ih =>
    simp only [loadRange] at h
    split at h
    · cases h
    · rename_i b e
      obtain ⟨r, d, w⟩ := ih h
      refine ⟨fun a => ?_, fun a h1 h2 => ?_, fun hw => w (Memory.write_wf _ _ hw)⟩
      · rw [r, Memory.read_write]
        by_cases ha : a = j
        · subst ha
          rw [if_neg (by omega), if_pos rfl, if_pos (by omega), e]
        · split_ifs <;> first | rfl | omega
      · by_cases ha : a = j
        · subst ha; simp [e]
        · exact d a (by omega) (by omega)

/-- The load succeeds exactly when the source holds every byte of the range. -/
theorem loadRange_ne_none {src : Memory 8} {offset n j : Nat} {chunk : Memory 8} :
    loadRange src offset n j chunk ≠ none ↔
      ∀ a, j ≤ a → a < j + n → Memory.read src (srcAddr offset a) ≠ none := by
  constructor
  · intro h
    obtain ⟨o, e⟩ := Option.ne_none_iff_exists'.1 h
    exact (loadRange_spec e).2.1
  · intro h
    induction n generalizing j chunk with
    | zero => simp [loadRange]
    | succ n ih =>
      simp only [loadRange]
      split
      · rename_i e
        exact absurd e (h j (by omega) (by omega))
      · exact ih fun a h1 h2 => h a (by omega) (by omega)

end Sys2Proof.Machine
end

