-- ==== Sys2Proof/Laws/Addressing.lean ====
section
/-! SUPPORT. The frame-addressing adder and the unpack function: what they answer, and the bounds of their arithmetic. -/

namespace Sys2Proof.Machine

theorem frameRange_unsupported {s : State} (h : s.bitDepth ≠ 12) : frameRange s = .error .unsupportedFormat := by
  simp only [frameRange, ne_eq, h, not_false_eq_true, if_true]

theorem frameRange_odd {s : State} (h : s.bitDepth = 12) (hn : pixelCount s % 2 = 1) :
    frameRange s = .error .precondition := by
  simp [frameRange, h, hn]

theorem frameRange_short {s : State} (h : s.bitDepth = 12) (hn : pixelCount s % 2 = 0)
    (hs : s.srcLen.toNat < seekOf (frameBytes (pixelCount s)) s + frameBytes (pixelCount s)) :
    frameRange s = .error .shortRead := by
  simp [frameRange, h, hn, hs]

/-- The adder answers a frame exactly when its three checks pass, and then the frame of R93, R95 and R96. -/
theorem frameRange_eq_ok {s : State} {f : FrameRange} :
    frameRange s = .ok f ↔
      s.bitDepth = 12 ∧ pixelCount s % 2 = 0 ∧
        seekOf (frameBytes (pixelCount s)) s + frameBytes (pixelCount s) ≤ s.srcLen.toNat ∧
        f = ⟨pixelCount s, frameBytes (pixelCount s), seekOf (frameBytes (pixelCount s)) s⟩ := by
  simp only [frameRange]
  split_ifs with h1 h2 h3
  · constructor
    · intro h; cases h
    · intro h; exact absurd h.1 h1
  · constructor
    · intro h; cases h
    · intro h; exact absurd h.2.1 h2
  · constructor
    · intro h; cases h
    · intro h; exact absurd h.2.2.1 (by omega)
  · constructor
    · intro h
      cases h
      exact ⟨by simpa using h1, by omega, by omega, rfl⟩
    · rintro ⟨-, -, -, rfl⟩; rfl

/-- The adder reads BIT_DEPTH, ROWS, COLUMNS, FRAME_INDEX and SRC_LEN and nothing else (R91). -/
theorem frameRange_congr {s t : State} (h1 : t.bitDepth = s.bitDepth) (h2 : t.rows = s.rows)
    (h3 : t.columns = s.columns) (h4 : t.frameIndex = s.frameIndex) (h5 : t.srcLen = s.srcLen) :
    frameRange t = frameRange s := by
  unfold frameRange pixelCount seekOf
  rw [h1, h2, h3, h4, h5]

theorem frameBytes_even {n : Nat} (h : n % 2 = 0) : frameBytes n = 3 * (n / 2) := by
  simp only [frameBytes]; omega

theorem frameBytes_div_three {n : Nat} (h : n % 2 = 0) : frameBytes n / 3 = n / 2 := by
  simp only [frameBytes]; omega

theorem pixelCount_lt (s : State) : pixelCount s < 2 ^ 64 := by
  have h1 := s.rows.isLt
  have h2 := s.columns.isLt
  have := Nat.mul_le_mul (Nat.le_sub_one_of_lt h1) (Nat.le_sub_one_of_lt h2)
  simp only [pixelCount]
  omega

/-- A frame inside the source fits every register that holds a part of it. -/
theorem frameRange_bounds {s : State} {f : FrameRange} (h : frameRange s = .ok f) :
    f.bytes < 2 ^ 64 ∧ f.offset < 2 ^ 64 ∧ f.pixels < 2 ^ 64 ∧ f.pixels % 2 = 0 ∧ f.bytes = 3 * (f.pixels / 2) ∧
      f.offset + f.bytes ≤ s.srcLen.toNat := by
  obtain ⟨-, h2, h3, rfl⟩ := frameRange_eq_ok.1 h
  have := s.srcLen.isLt
  have := pixelCount_lt s
  exact ⟨by dsimp only; omega, by dsimp only; omega, this, h2, frameBytes_even h2, h3⟩

theorem kernelOk_iff {l m : Nat} : kernelOk l m = true ↔ l % 3 = 0 ∧ m = l / 3 * 2 := by simp [kernelOk]

theorem kernelOk_false_iff {l m : Nat} : kernelOk l m = false ↔ l % 3 ≠ 0 ∨ m ≠ l / 3 * 2 := by
  rw [← Bool.not_eq_true, kernelOk_iff]; tauto

theorem fits_mono {cap : Option Nat} {m n : Nat} (h : m ≤ n) (hn : fits cap n = true) : fits cap m = true := by
  cases cap with
  | none => rfl
  | some c => simp only [fits, decide_eq_true_eq] at hn ⊢; omega

/-- `sample_even` in arithmetic: the two terms of the `|` share no bit (R76). -/
theorem sampleEven_toNat (b0 b1 : Byte) : (sampleEven b0 b1).toNat = 16 * b0.toNat + b1.toNat / 16 := by
  have h0 := b0.isLt
  have h1 := b1.isLt
  have e0 : (b0.setWidth 16 <<< 4).toNat = b0.toNat <<< 4 := by
    rw [BitVec.toNat_shiftLeft, BitVec.toNat_setWidth, Nat.shiftLeft_eq, Nat.shiftLeft_eq]; omega
  have e1 : (b1.setWidth 16 >>> 4).toNat = b1.toNat / 16 := by
    rw [BitVec.toNat_ushiftRight, BitVec.toNat_setWidth, Nat.shiftRight_eq_div_pow]; omega
  rw [sampleEven, BitVec.toNat_or, e0, e1, ← Nat.shiftLeft_add_eq_or_of_lt (by omega), Nat.shiftLeft_eq]
  omega

/-- `sample_odd` in arithmetic (R76). -/
theorem sampleOdd_toNat (b1 b2 : Byte) : (sampleOdd b1 b2).toNat = 256 * (b1.toNat % 16) + b2.toNat := by
  have h1 := b1.isLt
  have h2 := b2.isLt
  have e1 : ((b1.setWidth 16 &&& 0x000F) <<< 8).toNat = (b1.toNat % 16) <<< 8 := by
    have e : (b1.setWidth 16 &&& 0x000F).toNat = b1.toNat % 16 := by
      rw [BitVec.toNat_and, BitVec.toNat_setWidth, Nat.mod_eq_of_lt (by omega)]
      exact Nat.and_two_pow_sub_one_eq_mod b1.toNat 4
    rw [BitVec.toNat_shiftLeft, e, Nat.shiftLeft_eq]; omega
  have e2 : (b2.setWidth 16).toNat = b2.toNat := by rw [BitVec.toNat_setWidth]; omega
  rw [sampleOdd, BitVec.toNat_or, e1, e2, ← Nat.shiftLeft_add_eq_or_of_lt (by omega), Nat.shiftLeft_eq]
  omega

theorem evenField_toNat (b0 b1 : Byte) : (evenField b0 b1).toNat = 16 * b0.toNat + b1.toNat / 16 := by
  have h1 := b1.isLt
  rw [evenField, BitVec.toNat_append, BitVec.extractLsb'_toNat, Nat.shiftRight_eq_div_pow,
    ← Nat.shiftLeft_add_eq_or_of_lt (Nat.mod_lt _ (by decide)), Nat.shiftLeft_eq]
  omega

theorem oddField_toNat (b1 b2 : Byte) : (oddField b1 b2).toNat = 256 * (b1.toNat % 16) + b2.toNat := by
  have h2 := b2.isLt
  rw [oddField, BitVec.toNat_append, BitVec.extractLsb'_toNat, Nat.shiftRight_zero,
    ← Nat.shiftLeft_add_eq_or_of_lt h2, Nat.shiftLeft_eq]
  omega

/-- The formula of R76 is the bit table of R62. -/
theorem sampleEven_eq_field (b0 b1 : Byte) : sampleEven b0 b1 = wordOfSample (evenField b0 b1) := by
  apply BitVec.eq_of_toNat_eq
  have h0 := b0.isLt
  have h1 := b1.isLt
  rw [sampleEven_toNat, wordOfSample, BitVec.toNat_setWidth, evenField_toNat]
  omega

theorem sampleOdd_eq_field (b1 b2 : Byte) : sampleOdd b1 b2 = wordOfSample (oddField b1 b2) := by
  apply BitVec.eq_of_toNat_eq
  have h1 := b1.isLt
  have h2 := b2.isLt
  rw [sampleOdd_toNat, wordOfSample, BitVec.toNat_setWidth, oddField_toNat]
  omega

/-- Samples are at most 4095 (R77). -/
theorem sampleEven_le (b0 b1 : Byte) : (sampleEven b0 b1).toNat ≤ 4095 := by
  have h0 := b0.isLt
  have h1 := b1.isLt
  rw [sampleEven_toNat]; omega

theorem sampleOdd_le (b1 b2 : Byte) : (sampleOdd b1 b2).toNat ≤ 4095 := by
  have h2 := b2.isLt
  rw [sampleOdd_toNat]; omega

theorem sampleOf_le {chunk : Memory 8} {k : Nat} {v : Word} (h : sampleOf chunk k = some v) : v.toNat ≤ 4095 := by
  simp only [sampleOf] at h
  split at h
  · cases h
  · split_ifs at h <;> cases h
    · exact sampleEven_le _ _
    · exact sampleOdd_le _ _

theorem wordOfSample_le (e : Sample) : (wordOfSample e).toNat ≤ 4095 := by
  have := e.isLt
  rw [wordOfSample, BitVec.toNat_setWidth]; omega

end Sys2Proof.Machine
end

