-- ==== Sys2Proof/Laws/Exec.lean ====
section
/-! SUPPORT. What each meaning can do when it answers a next state, said once. -/

namespace Sys2Proof.Machine

/-- The state a successful UNPACK leaves. -/
def unpacked (s : State) (out : Memory 16) : State := finish { accept s with out := out }

/-- The state a successful DECODE leaves. -/
def decoded (s : State) (f : FrameRange) (chunk : Memory 8) (out : Memory 16) : State :=
  finish (setLengths f.bytes f.pixels { setFrameRegs f (accept s) with chunk := chunk, out := out })

theorem execClear_next {s t : State} (h : exec .clear s = .next t) :
    (s.status.busy = true ∧ t = s) ∨ (s.status.busy = false ∧ t = forgetOutcome s) := by
  change execClear s = _ at h
  simp only [execClear] at h
  split_ifs at h with hb <;> cases h
  · exact .inl ⟨hb, rfl⟩
  · exact .inr ⟨by simpa using hb, rfl⟩

theorem execAddr_next {s t : State} (h : exec .addr s = .next t) :
    (s.status.busy = true ∧ t = s) ∨
      (s.status.busy = false ∧ ∃ e, frameRange s = .error e ∧ t = raiseError e (accept s)) ∨
      (s.status.busy = false ∧ ∃ f, frameRange s = .ok f ∧ t = finish (setFrameRegs f (accept s))) := by
  change execAddr s = _ at h
  simp only [execAddr] at h
  split_ifs at h with hb
  · cases h; exact .inl ⟨hb, rfl⟩
  · have hb' : s.status.busy = false := by simpa using hb
    split at h <;> cases h
    · rename_i e he; exact .inr (.inl ⟨hb', e, he, rfl⟩)
    · rename_i f hf; exact .inr (.inr ⟨hb', f, hf, rfl⟩)

theorem execUnpack_next {s t : State} (h : exec .unpack s = .next t) :
    (s.status.busy = true ∧ t = s) ∨
      (s.status.busy = false ∧ kernelOk s.dataLen.toNat s.outLen.toNat = false ∧
        t = raiseError .precondition (accept s)) ∨
      (s.status.busy = false ∧ fits s.params.chunkCap s.dataLen.toNat = true ∧
        fits s.params.outCap s.outLen.toNat = true ∧ kernelOk s.dataLen.toNat s.outLen.toNat = true ∧
        ∃ out, unpackRange s.chunk (s.dataLen.toNat / 3) 0 s.out = some out ∧ t = unpacked s out) := by
  change execUnpack s = _ at h
  simp only [execUnpack] at h
  split_ifs at h with hb h1 h2 h3
  · cases h; exact .inl ⟨hb, rfl⟩
  · cases h; exact .inr (.inl ⟨by simpa using hb, by simpa using h3, rfl⟩)
  · split at h <;> cases h
    rename_i out e
    exact .inr (.inr ⟨by simpa using hb, by simpa using h1, by simpa using h2, by simpa using h3, out, e, rfl⟩)

theorem execDecode_next {s t : State} (h : exec .decode s = .next t) :
    (s.status.busy = true ∧ t = s) ∨
      (s.status.busy = false ∧ ∃ e, frameRange s = .error e ∧ t = raiseError e (accept s)) ∨
      (s.status.busy = false ∧ ∃ f chunk out, frameRange s = .ok f ∧ fits s.params.chunkCap f.bytes = true ∧
        fits s.params.outCap f.pixels = true ∧ (f.bytes ≠ 0 → s.srcAck = true) ∧
        loadRange s.src f.offset f.bytes 0 s.chunk = some chunk ∧
        unpackRange chunk (f.bytes / 3) 0 s.out = some out ∧ t = decoded s f chunk out) ∨
      (s.status.busy = false ∧ ∃ f, frameRange s = .ok f ∧ fits s.params.chunkCap f.bytes = true ∧
        fits s.params.outCap f.pixels = true ∧ f.bytes ≠ 0 ∧ s.srcAck = false ∧ t = enterLoad f s) := by
  change execDecode s = _ at h
  simp only [execDecode] at h
  split_ifs at h with hb
  · cases h; exact .inl ⟨hb, rfl⟩
  · have hb' : s.status.busy = false := by simpa using hb
    split at h
    · rename_i e he
      cases h; exact .inr (.inl ⟨hb', e, he, rfl⟩)
    · rename_i f hf
      split_ifs at h with h1 h2 h3
      · cases h
        exact .inr (.inr (.inr ⟨hb', f, hf, by simpa using h1, by simpa using h2, h3.1, h3.2, rfl⟩))
      · split at h
        · cases h
        · rename_i chunk hc
          split at h <;> cases h
          rename_i out ho
          refine .inr (.inr (.inl ⟨hb', f, chunk, out, hf, by simpa using h1, by simpa using h2, ?_, hc, ho, rfl⟩))
          intro h0
          by_contra ha
          exact h3 ⟨h0, by simpa using ha⟩

theorem execTriplet_next {s t : State} {e o : Sample} (h : exec (.triplet e o) s = .next t) :
    (∃ r, s.seq = .run r ∧
      t = { s with
            out := writePair s.out r.ti (wordOfSample e) (wordOfSample o)
            seq := .run { r with ti := r.ti + 1, laneRegs := r.laneRegs ++ [laneOf e o] } }) ∨
      ((∀ r, s.seq ≠ .run r) ∧ t = s) := by
  change execTriplet e o s = _ at h
  simp only [execTriplet] at h
  split at h <;> cases h
  · rename_i r hr; exact .inl ⟨r, hr, rfl⟩
  · rename_i r hr; exact .inr ⟨fun q hq => by simp [hr] at hq, rfl⟩
  · rename_i hr; exact .inr ⟨fun q hq => by simp [hr] at hq, rfl⟩

/-- A triplet taken by the running kernel. -/
theorem execTriplet_of_run {s : State} {r : Running} (e o : Sample) (h : s.seq = .run r) :
    exec (.triplet e o) s =
      .next
        { s with
          out := writePair s.out r.ti (wordOfSample e) (wordOfSample o)
          seq := .run { r with ti := r.ti + 1, laneRegs := r.laneRegs ++ [laneOf e o] } } := by
  change execTriplet e o s = _
  simp only [execTriplet, h]

/-- A successful UNPACK, from what it needs. -/
theorem execUnpack_of_ok {s : State} {out : Memory 16} (hb : s.status.busy = false)
    (h1 : fits s.params.chunkCap s.dataLen.toNat = true) (h2 : fits s.params.outCap s.outLen.toNat = true)
    (h3 : kernelOk s.dataLen.toNat s.outLen.toNat = true)
    (h : unpackRange s.chunk (s.dataLen.toNat / 3) 0 s.out = some out) : exec .unpack s = .next (unpacked s out) := by
  change execUnpack s = _
  simp [execUnpack, hb, h1, h2, h3, h, unpacked]

/-- A failing ADDR or DECODE. -/
theorem execFrame_of_error {s : State} {e : ErrorKind} (hb : s.status.busy = false) (h : frameRange s = .error e) :
    exec .addr s = .next (raiseError e (accept s)) ∧ exec .decode s = .next (raiseError e (accept s)) := by
  change execAddr s = _ ∧ execDecode s = _
  simp [execAddr, execDecode, hb, h]

/-- A successful ADDR, from what it needs. -/
theorem execAddr_of_ok {s : State} {f : FrameRange} (hb : s.status.busy = false) (h : frameRange s = .ok f) :
    exec .addr s = .next (finish (setFrameRegs f (accept s))) := by
  change execAddr s = _
  simp [execAddr, hb, h]

/-- After the load of a whole frame the kernel finds all its cells defined, so inside DECODE it never refuses (R104). -/
theorem unpackRange_after_load {src chunk chunk' : Memory 8} {offset n : Nat} (out : Memory 16)
    (h : loadRange src offset (3 * n) 0 chunk = some chunk') : unpackRange chunk' n 0 out ≠ none := by
  obtain ⟨r, d, -⟩ := loadRange_spec h
  rw [unpackRange_ne_none, tripletsDefined_iff]
  intro j h1 h2
  rw [r, if_pos (by omega)]
  exact d j (by omega) (by omega)

/-- DECODE once its checks have passed, in one equation. -/
theorem execDecode_of_silent {s : State} {f : FrameRange} (hb : s.status.busy = false) (hf : frameRange s = .ok f)
    (h1 : fits s.params.chunkCap f.bytes = true) (h2 : fits s.params.outCap f.pixels = true) (h3 : f.bytes ≠ 0)
    (ha : s.srcAck = false) : exec .decode s = .next (enterLoad f s) := by
  change execDecode s = _
  simp [execDecode, *]

theorem execDecode_of_ok {s : State} {f : FrameRange} (hb : s.status.busy = false) (hf : frameRange s = .ok f)
    (h1 : fits s.params.chunkCap f.bytes = true) (h2 : fits s.params.outCap f.pixels = true)
    (h3 : f.bytes ≠ 0 → s.srcAck = true) :
    exec .decode s =
      match loadRange s.src f.offset f.bytes 0 s.chunk with
      | none => .refused .sourceContradictsLength
      | some chunk =>
        match unpackRange chunk (f.bytes / 3) 0 s.out with
        | none => .refused .undefinedChunkCell
        | some out => .next (decoded s f chunk out) := by
  change execDecode s = _
  have h3' : ¬(f.bytes ≠ 0 ∧ s.srcAck = false) := fun h => by simpa [h.2] using h3 h.1
  simp only [execDecode, hb, hf, h1, h2, Bool.false_eq_true, Bool.not_true, if_false, if_neg h3', decoded] <;> rfl

end Sys2Proof.Machine
end

