-- ==== Sys2Proof/Laws/Sequencer.lean ====
section
/-! SUPPORT. What one micro-step can do, and the run of micro-steps from a phase to the end of its command. -/

namespace Sys2Proof.Machine

theorem fetchTriplet_eq (chunk : Memory 8) (i : Nat) :
    fetchTriplet chunk i =
      (tripletAt chunk i).map fun b => .triplet (evenField b.1 b.2.1) (oddField b.2.1 b.2.2) := by
  simp only [fetchTriplet]
  cases tripletAt chunk i <;> rfl

/-- The state a kernel iteration leaves: the pair written, TI advanced, the lane recorded. -/
def iterated (s : State) (r : Running) (out : Memory 16) (ti : Nat) (lanes : List Lane) : State :=
  { s with out := out, seq := .run { r with ti := ti, laneRegs := lanes } }

/-- `g` iterations are the kernel's loop over the triplets TI to TI+g-1; each records one lane. -/
theorem kernelIterate_spec (g : Nat) {s : State} {r : Running} (hs : s.seq = .run r) :
    match unpackRange s.chunk g r.ti s.out with
    | none => kernelIterate g s = .refused .undefinedChunkCell
    | some out => ∃ lanes, lanes.length = r.laneRegs.length + g ∧
        kernelIterate g s = .next (iterated s r out (r.ti + g) lanes) := by
  induction g generalizing s r with
  | zero =>
    refine ⟨r.laneRegs, rfl, ?_⟩
    simp only [kernelIterate, iterated, Nat.add_zero]
    rw [← hs]
  | succ g ih =>
    simp only [unpackRange, kernelIterate, hs, fetchTriplet_eq, unpackOne]
    cases ht : tripletAt s.chunk r.ti with
    | none => rfl
    | some b =>
      obtain ⟨b0, b1, b2⟩ := b
      have hx : exec (.triplet (evenField b0 b1) (oddField b1 b2)) s =
          .next (iterated s r (writePair s.out r.ti (sampleEven b0 b1) (sampleOdd b1 b2)) (r.ti + 1)
            (r.laneRegs ++ [laneOf (evenField b0 b1) (oddField b1 b2)])) := by
        change execTriplet _ _ s = _
        simp only [execTriplet, hs, iterated, sampleEven_eq_field, sampleOdd_eq_field]
      simp only [Option.map_some, hx, andThen_next]
      have := ih (s := iterated s r (writePair s.out r.ti (sampleEven b0 b1) (sampleOdd b1 b2)) (r.ti + 1)
            (r.laneRegs ++ [laneOf (evenField b0 b1) (oddField b1 b2)])) rfl
      simp only [iterated] at this ⊢
      split at this
      · exact this
      · obtain ⟨lanes, hl, hk⟩ := this
        refine ⟨lanes, by simp [hl]; omega, ?_⟩
        rw [hk]
        simp only [Nat.add_assoc, Nat.add_comm 1 g]

/-- One kernel step (R89), in terms of the kernel's loop. -/
theorem kernelStep_spec {s : State} {r : Running} {g : Nat} (hs : s.seq = .run r)
    (hg : g = min s.params.lanes (r.nL - r.ti)) :
    match unpackRange s.chunk g r.ti s.out with
    | none => advance s = .refused .undefinedChunkCell
    | some out => ∃ lanes, lanes.length = g ∧
        advance s =
          if r.ti + g = r.nL then .next (finish { s with out := out })
          else .next (iterated s r out (r.ti + g) lanes) := by
  have h := kernelIterate_spec g (s := { s with seq := .run { r with laneRegs := [] } }) rfl
  simp only [advance, hs, kernelStep, ← hg]
  simp only at h
  split at h
  · simp only [h, andThen_refused]
  · obtain ⟨lanes, hl, hk⟩ := h
    refine ⟨lanes, by simpa using hl, ?_⟩
    simp only [hk, andThen_next, completeRun, iterated]
    split_ifs <;> rfl

/-- One move of LOAD by an answering source (R115). -/
theorem loadStep_spec {s : State} {r : Running} (hs : s.seq = .load r) (ha : s.srcAck = true) :
    advance s =
      match Memory.read s.src (srcAddr r.seekL r.lj) with
      | none => .refused .sourceContradictsLength
      | some b =>
        if r.lj + 1 = r.fbsL then
          .next
            (setLengths r.fbsL r.mL
              { s with chunk := s.chunk.write r.lj b, seq := .run { r with lj := r.lj + 1, ti := 0 } })
        else .next { s with chunk := s.chunk.write r.lj b, seq := .load { r with lj := r.lj + 1 } } := by
  simp only [advance, hs, loadStep, ha, if_true] <;> rfl

/-- Everything one move of LOAD can do when it answers a next state: wait, load a byte, or load the last byte. -/
theorem loadStep_next {s t : State} {r : Running} (hs : s.seq = .load r) (h : advance s = .next t) :
    (s.srcAck = false ∧ t = s) ∨
      (s.srcAck = true ∧ ∃ b, Memory.read s.src (srcAddr r.seekL r.lj) = some b ∧
        ((r.lj + 1 = r.fbsL ∧
            t = setLengths r.fbsL r.mL
              { s with chunk := s.chunk.write r.lj b, seq := .run { r with lj := r.lj + 1, ti := 0 } }) ∨
          (r.lj + 1 ≠ r.fbsL ∧ t = { s with chunk := s.chunk.write r.lj b, seq := .load { r with lj := r.lj + 1 } }))) := by
  by_cases ha : s.srcAck = true
  · rw [loadStep_spec hs ha] at h
    split at h
    · cases h
    · rename_i b hb
      refine .inr ⟨ha, b, hb, ?_⟩
      split_ifs at h with h1 <;> cases h
      · exact .inl ⟨h1, rfl⟩
      · exact .inr ⟨h1, rfl⟩
  · have ha' : s.srcAck = false := by simpa using ha
    simp only [advance, hs, loadStep, ha'] at h
    cases h; exact .inl ⟨ha', rfl⟩

@[simp] theorem advance_idle {s : State} (h : s.seq = .idle) : advance s = .next s := by simp only [advance, h]

/-- An idle block stays as it is through any number of micro-steps. -/
theorem runTicks_idle (k : Nat) {s : State} (h : s.seq = .idle) : runTicks k s = .next s := by
  induction k with
  | zero => rfl
  | succ k ih => rw [runTicks, advance_idle h, andThen_next, ih]

/-- From RUN, enough kernel steps end the command with the kernel's outcome, whatever LANES is. -/
theorem runTicks_run (k : Nat) {s : State} {r : Running} (hs : s.seq = .run r) (hl : 1 ≤ s.params.lanes)
    (hti : r.ti < r.nL) (hk : r.nL - r.ti ≤ k) :
    runTicks k s =
      match unpackRange s.chunk (r.nL - r.ti) r.ti s.out with
      | none => .refused .undefinedChunkCell
      | some out => .next (finish { s with out := out }) := by
  induction k generalizing s r with
  | zero => omega
  | succ k ih =>
    have h := kernelStep_spec hs rfl
    generalize hg : min s.params.lanes (r.nL - r.ti) = g at h
    have hg1 : 1 ≤ g ∧ g ≤ r.nL - r.ti := by omega
    have hsplit : r.nL - r.ti = g + (r.nL - (r.ti + g)) := by omega
    rw [hsplit, unpackRange_add, runTicks]
    split at h
    · rename_i e; simp only [e, h, andThen_refused, Option.bind_none]
    · rename_i out e
      obtain ⟨lanes, -, hstep⟩ := h
      simp only [e, hstep, Option.bind_some]
      by_cases hn : r.ti + g = r.nL
      · rw [if_pos hn, andThen_next, runTicks_idle k rfl, hn]
        simp [unpackRange]
      · rw [if_neg hn, andThen_next]
        have := ih (s := iterated s r out (r.ti + g) lanes)
          (r := { r with ti := r.ti + g, laneRegs := lanes }) rfl hl (by dsimp only; omega) (by dsimp only; omega)
        rw [this]
        rfl

/-- From LOAD, enough moves of an answering source and the kernel end the command with the outcome of load and kernel. -/
theorem runTicks_load (k : Nat) {s : State} {r : Running} (hs : s.seq = .load r) (ha : s.srcAck = true)
    (hl : 1 ≤ s.params.lanes) (hlj : r.lj < r.fbsL) (hn : 0 < r.nL) (hk : (r.fbsL - r.lj) + r.nL ≤ k) :
    runTicks k s =
      match loadRange s.src r.seekL (r.fbsL - r.lj) r.lj s.chunk with
      | none => .refused .sourceContradictsLength
      | some chunk =>
        match unpackRange chunk r.nL 0 s.out with
        | none => .refused .undefinedChunkCell
        | some out => .next (finish (setLengths r.fbsL r.mL { s with chunk := chunk, out := out })) := by
  induction k generalizing s r with
  | zero => omega
  | succ k ih =>
    rw [runTicks, loadStep_spec hs ha]
    obtain ⟨m, hm⟩ : ∃ m, r.fbsL - r.lj = m + 1 := ⟨r.fbsL - r.lj - 1, by omega⟩
    rw [hm, loadRange]
    cases hr : Memory.read s.src (srcAddr r.seekL r.lj) with
    | none => rfl
    | some b =>
      simp only
      by_cases he : r.lj + 1 = r.fbsL
      · have : m = 0 := by omega
        subst this
        rw [if_pos he, andThen_next]
        simp only [loadRange]
        have := runTicks_run k
          (s := setLengths r.fbsL r.mL
            { s with chunk := s.chunk.write r.lj b, seq := .run { r with lj := r.lj + 1, ti := 0 } })
          (r := { r with lj := r.lj + 1, ti := 0 }) rfl hl (by simpa using hn) (by dsimp only; omega)
        rw [this]
        rfl
      · rw [if_neg he, andThen_next]
        have := ih (s := { s with chunk := s.chunk.write r.lj b, seq := .load { r with lj := r.lj + 1 } })
          (r := { r with lj := r.lj + 1 }) rfl ha hl (by dsimp only; omega) hn (by dsimp only; omega)
        rw [this]
        have e : r.fbsL - (r.lj + 1) = m := by omega
        simp only [e]
        rfl

end Sys2Proof.Machine
end

