-- ==== Sys2Proof/Laws/HostPort.lean ====
section
/-! SUPPORT. What each event can do when it answers a next state, said once. -/

namespace Sys2Proof.Machine

theorem startUnpack_next {s t : State} (h : startUnpack s = .next t) :
    (s.status.busy = true ∧ t = s) ∨
      (s.status.busy = false ∧ kernelOk s.dataLen.toNat s.outLen.toNat = false ∧
        t = raiseError .precondition (accept s)) ∨
      (s.status.busy = false ∧ kernelOk s.dataLen.toNat s.outLen.toNat = true ∧ s.dataLen.toNat / 3 = 0 ∧
        t = finish (accept s)) ∨
      (s.status.busy = false ∧ fits s.params.chunkCap s.dataLen.toNat = true ∧
        fits s.params.outCap s.outLen.toNat = true ∧ kernelOk s.dataLen.toNat s.outLen.toNat = true ∧
        s.dataLen.toNat / 3 ≠ 0 ∧
        t = { accept s with
              seq := .run
                { op := .unpack, fbsL := 0, seekL := 0, nL := s.dataLen.toNat / 3, mL := s.outLen.toNat,
                  lj := 0, ti := 0, laneRegs := [], before := beforeOf s } }) := by
  simp only [startUnpack] at h
  split_ifs at h with hb h1 h2 h3 h4 <;> cases h
  · exact .inl ⟨hb, rfl⟩
  · exact .inr (.inl ⟨by simpa using hb, by simpa using h3, rfl⟩)
  · exact .inr (.inr (.inl ⟨by simpa using hb, by simpa using h3, h4, rfl⟩))
  · exact .inr (.inr (.inr ⟨by simpa using hb, by simpa using h1, by simpa using h2, by simpa using h3, h4, rfl⟩))

theorem startDecode_next {s t : State} (h : startDecode s = .next t) :
    (s.status.busy = true ∧ t = s) ∨
      (s.status.busy = false ∧ ∃ e, frameRange s = .error e ∧ t = raiseError e (accept s)) ∨
      (s.status.busy = false ∧ ∃ f, frameRange s = .ok f ∧ f.bytes = 0 ∧
        t = finish (setLengths f.bytes f.pixels (setFrameRegs f (accept s)))) ∨
      (s.status.busy = false ∧ ∃ f, frameRange s = .ok f ∧ fits s.params.chunkCap f.bytes = true ∧
        fits s.params.outCap f.pixels = true ∧ f.bytes ≠ 0 ∧
        t = enterLoad f s) := by
  simp only [startDecode] at h
  split_ifs at h with hb
  · cases h; exact .inl ⟨hb, rfl⟩
  · have hb' : s.status.busy = false := by simpa using hb
    split at h
    · rename_i e he
      cases h; exact .inr (.inl ⟨hb', e, he, rfl⟩)
    · rename_i f hf
      split_ifs at h with h1 h2 h3 <;> cases h
      · exact .inr (.inr (.inl ⟨hb', f, hf, h3, rfl⟩))
      · exact .inr (.inr (.inr ⟨hb', f, hf, by simpa using h1, by simpa using h2, h3, rfl⟩))

/-- A host write ends in one of four ways: dropped, ignored, a register written, a byte presented (R69). -/
theorem hostWrite_next {s t : State} {r : BitVec 4} {v : BitVec 129} (h : hostWrite r v s = .next t) :
    t = s ∨ (s.status.busy = false ∧ ∃ g, regOfNumber r = some g ∧ t = writeReg s v g) ∨
      (s.status.busy = false ∧ presentByte (v.setWidth 8) s = .next t) := by
  simp only [hostWrite] at h
  split_ifs at h with hb
  · cases h; exact .inl rfl
  · split at h
    · cases h; exact .inl rfl
    · exact .inr (.inr ⟨by simpa using hb, h⟩)
    · rename_i g _ hg
      cases h; exact .inr (.inl ⟨by simpa using hb, g, hg, rfl⟩)

/-- A read changes only the read port and the count of free values (R70). -/
theorem hostRead_next {s t : State} {r : BitVec 4} (h : hostRead r s = .next t) :
    t = { s with hRdata := t.hRdata, freeCount := t.freeCount } := by
  simp only [hostRead] at h
  split at h
  · cases h; rfl
  · split_ifs at h <;> cases h <;> rfl

/-- What a read finds while a command runs is the old or the new word (R48, R143). -/
theorem wordWhileBusy_cases {s : State} {k : Nat} {w : Word} (h : wordWhileBusy s k = some w) :
    wordBefore s k = some w ∨ wordAfter s k = some w := by
  simp only [wordWhileBusy] at h
  split_ifs at h
  · cases ha : wordAfter s k with
    | none => rw [ha, Option.none_or] at h; exact .inl h
    | some v => rw [ha, Option.some_or] at h; exact .inr h
  · exact .inl h

/-- Where there is an old word the read finds a word. -/
theorem wordWhileBusy_ne_none {s : State} {k : Nat} (h : wordBefore s k ≠ none) : wordWhileBusy s k ≠ none := by
  simp only [wordWhileBusy]
  split_ifs
  · cases wordAfter s k <;> simp [h]
  · exact h

/-- A read of a register a command may write finds its old or its new value (R15, R143). -/
theorem regWhileBusy_cases (s : State) (g : Reg) :
    regWhileBusy s g = regBefore s g ∨ regWhileBusy s g = regAfter s g := by
  simp only [regWhileBusy]
  split_ifs
  · exact .inr rfl
  · exact .inl rfl

theorem chunkWrite_next {s t : State} {j : BitVec 65} {b : Byte} (h : chunkWrite j b s = .next t) :
    t = s ∨ (s.status.busy = false ∧ fits s.params.chunkCap (j.toNat + 1) = true ∧
      t = { s with chunk := s.chunk.write j.toNat b }) := by
  simp only [chunkWrite] at h
  split_ifs at h with hb hf <;> cases h
  · exact .inl rfl
  · exact .inr ⟨by simpa using hb, hf, rfl⟩

theorem outRead_next {s t : State} {k : BitVec 65} (h : outRead k s = .next t) :
    t = { s with orData := t.orData, freeCount := t.freeCount } := by
  simp only [outRead] at h
  split_ifs at h
  · split at h <;> cases h; rfl
  · split at h <;> cases h; rfl

theorem setSource_next {s t : State} {len : BitVec 64} {cells : List (Nat × Byte)}
    (h : setSource len cells s = .next t) :
    t = { s with srcLen := len, src := Memory.ofCells len.toNat cells } ∧
      (s.status.busy = true → t.srcLen = s.srcLen ∧ t.src = s.src) := by
  simp only [setSource] at h
  split_ifs at h with hc
  cases h
  refine ⟨rfl, fun hb => ?_⟩
  have := not_and.1 hc hb
  simpa using this

/-- The four ways a command presented by `WR CMD` goes on (R111, R119). -/
theorem presentByte_next {s t : State} {c : Byte} (h : presentByte c s = .next t) :
    t = raiseError .illegalCommand (forgetOutcome s) ∨
      ∃ i rest, decode .cmd8 [c] = .instr i rest ∧
        ((s.params.reading = .bigStep ∧ exec i s = .next t) ∨
          (s.params.reading = .microStep ∧ startCommand i s = .next t)) := by
  simp only [presentByte] at h
  split at h
  · rename_i i rest hi
    refine .inr ⟨i, rest, hi, ?_⟩
    simp only [performCommand] at h
    split at h
    · rename_i hr; exact .inl ⟨hr, h⟩
    · rename_i hr; exact .inr ⟨hr, h⟩
  · cases h; exact .inl rfl

end Sys2Proof.Machine
end

