-- ==== Sys2Proof/Laws/PerInstr.lean ====
section
/-! SUPPORT. Facts of the instructions as syntax, one lemma per constructor. -/

namespace Sys2Proof.Laws

/-- An instruction's encoding has the length of its format (R62, R66). -/
def EncodeLength.Statement (i : Instr) : Prop := (encode i).length = i.format.bytes

theorem EncodeLength.nop : EncodeLength.Statement .nop := rfl
theorem EncodeLength.addr : EncodeLength.Statement .addr := rfl
theorem EncodeLength.unpack : EncodeLength.Statement .unpack := rfl
theorem EncodeLength.decode : EncodeLength.Statement .decode := rfl
theorem EncodeLength.clear : EncodeLength.Statement .clear := rfl
theorem EncodeLength.triplet (even odd : Sample) : EncodeLength.Statement (.triplet even odd) := rfl

end Sys2Proof.Laws
end

