-- ==== Sys2Proof/Tests/Slice0.lean ====
section
/-! SUPPORT. Tests: expected values are those of 95_test_vectors.md (the vector is named in each comment) or written out from
the tables of 30_encoding.md; and, for every obligation with hypotheses, a state and operands that meet them. -/

open Sys2Proof Sys2Proof.Machine

namespace Sys2Proof.Tests

/-! ### Helpers -/

def nextIs (o : Outcome) (p : State → Bool) : Bool :=
  match o with
  | .next s => p s
  | .fault _ => false
  | .refused _ => false

def refusedAs (o : Outcome) (r : Refusal) : Bool :=
  match o with
  | .next _ => false
  | .fault _ => false
  | .refused q => decide (q = r)

/-- The cells of consecutive bytes from index `a`. -/
def cellsFrom : Nat → List Byte → Memory 8
  | _, [] => []
  | a, b :: rest => (a, b) :: cellsFrom (a + 1) rest

/-- The twelve-byte source of section 2.5. -/
def source : Memory 8 := cellsFrom 0 [0x12, 0x34, 0x56, 0x78, 0x9A, 0xBC, 0xAB, 0xCD, 0xEF, 0x00, 0xFF, 0x00]

/-- A geometry with BIT_DEPTH = 12 and that source attached. -/
def frame (rows columns : BitVec 32) (index : BitVec 64) : State :=
  { State.reset with rows := rows, columns := columns, bitDepth := 12, frameIndex := index, srcLen := 12, src := source }

/-- A packet in CHUNK with the two lengths. -/
def packet (bytes : List Byte) (l m : BitVec 65) : State :=
  { State.reset with chunk := cellsFrom 0 bytes, dataLen := l, outLen := m }

/-- The reset state with a given STATUS. -/
def withStatus (busy done err : Bool) (code : BitVec 4) : State :=
  { State.reset with status := { busy := busy, done := done, err := err, errCode := code } }

def busyState : State := withStatus true false false 0

def micro (s : State) : State := { s with params := { Params.default with reading := .microStep } }

def capped (c o : Nat) (s : State) : State := { s with params := { Params.default with chunkCap := some c, outCap := some o } }

/-- The kernel of an UNPACK of two triplets, at its first. -/
def unpackRecord : Running :=
  { op := .unpack, fbsL := 0, seekL := 0, nL := 2, mL := 4, lj := 0, ti := 0, laneRegs := [],
    before := { beforeOf State.reset with dataLen := 6, outLen := 4 } }

def kernelState (lanes : Nat) : State :=
  { packet [0xAA, 0xBB, 0xCC, 0xDD, 0xEE, 0xFF] 6 4 with
    status := statusAccepted Status.reset
    seq := .run unpackRecord
    params := { Params.default with lanes := lanes, reading := .microStep } }

/-- A DECODE of the 2 by 1 frame of index 0 in LOAD, before its first byte. -/
def loadRecord : Running :=
  { op := .decode, fbsL := 3, seekL := 0, nL := 1, mL := 2, lj := 0, ti := 0, laneRegs := [],
    before := beforeOf State.reset }

def loadState : State :=
  { micro (frame 2 1 0) with
    status := statusAccepted Status.reset
    frameByteSize := 3
    seekOffset := 0
    seq := .load loadRecord }

/-- The same UNPACK over an output buffer that holds earlier words: 0x0001 at index 3, 0x0002 at index 4. -/
def rerunRecord : Running := { unpackRecord with before := { unpackRecord.before with out := [(3, 0x0001), (4, 0x0002)] } }

def rerunState : State := { kernelState 1 with out := [(3, 0x0001), (4, 0x0002)], seq := .run rerunRecord }

/-! ### Words written out from the tables of R62 and R67 -/

theorem test_decode_nop : decodeTableWord 8 0b00000000 = some .nop := by decide
theorem test_decode_addr : decodeTableWord 8 0b00000001 = some .addr := by decide
theorem test_decode_unpack : decodeTableWord 8 0b00000010 = some .unpack := by decide
theorem test_decode_decode : decodeTableWord 8 0b00000011 = some .decode := by decide
theorem test_decode_clear : decodeTableWord 8 0b00000100 = some .clear := by decide
theorem test_decode_reserved_first : decode .cmd8 [0x05] = .reject (.reservedCommand 0x05) := by decide
theorem test_decode_reserved_high_bit : decode .cmd8 [0x80] = .reject (.reservedCommand 0x80) := by decide
theorem test_decode_reserved_last : decodeTableWord 8 0xFF = none := by decide
theorem test_decode_no_bytes : decode .cmd8 [] = .reject .noBytes ∧ decode .data24 [] = .reject .noBytes := by decide
theorem test_decode_short_triplet : decode .data24 [0xAB, 0xCD] = .reject .shortTriplet := by decide
/-- K-1: b0 = AB, b1 = CD, b2 = EF. -/
theorem test_decode_triplet : decode .data24 [0xAB, 0xCD, 0xEF, 0x77] = .instr (.triplet 0xABC 0xDEF) [0x77] := by decide
/-- K-4, as the table numbers it: E in bits 23:12, O in bits 11:0. -/
theorem test_decode_triplet_word : decodeTableWord 24 0b000100100011010001010110 = some (.triplet 0x123 0x456) := by decide
/-- K-6, K-7: the nibbles of b1. -/
theorem test_decode_triplet_nibbles :
    decodeTableWord 24 0x00F000 = some (.triplet 0x00F 0x000) ∧ decodeTableWord 24 0x000F00 = some (.triplet 0x000 0xF00) := by
  decide
/-- The inverse check after K-24: K-22 back to its bytes. -/
theorem test_encode_triplet : encode (.triplet 0xDEA 0xDBE) = [0xDE, 0xAD, 0xBE] := by decide
/-- P4: `WR CMD, 0x5` is the line (W, 0x7, 0x5). -/
theorem test_decode_script_line : decodeTxn ⟨.W, 0x7, 0x5⟩ = some (.writeReg 0x7 0x5) := by decide
theorem test_decode_script_line_too_wide : decodeTxn ⟨.W, 0x10, 0x5⟩ = none ∧ decodeTxn ⟨.C, 0, 0x100⟩ = none := by decide

/-! ### WellFormed: an ill-formed term for each check -/

theorem test_wellFormed_every_row :
    [Instr.nop, .addr, .unpack, .decode, .clear, .triplet 0xFFF 0xFFF].all Instr.wellFormed = true := by decide
theorem test_wellFormed_write_fits : (Txn.writeReg 0x0 0xFFFFFFFF).wellFormed = true := by decide
theorem test_wellFormed_write_too_wide : (Txn.writeReg 0x0 0x100000000).wellFormed = false := by decide
theorem test_wellFormed_command_too_wide : (Event.host (.writeReg 0x7 0x100)).wellFormed = false := by decide
theorem test_wellFormed_reserved_number : (Txn.writeReg 0xC 0x100000000).wellFormed = true := by decide
theorem test_wellFormed_source : (Event.setSource 2 [(0, 1), (1, 2)]).wellFormed = true := by decide
theorem test_wellFormed_source_cell_outside : (Event.setSource 2 [(0, 1), (2, 2)]).wellFormed = false := by decide
theorem test_wellFormed_no_lane : Params.wellFormed { Params.default with lanes := 0 } = false := by decide

/-! ### One step of every instruction -/

/-- C-2. -/
theorem test_nop_does_not_acknowledge :
    nextIs (step ((withStatus false true true 2).withFetchWord 8 0)) (fun t => decide (statusByte t.status = 0x26)) = true := by
  decide
/-- C-4. -/
theorem test_clear :
    nextIs (step ((withStatus false true true 3).withFetchWord 8 4)) (fun t => decide (statusByte t.status = 0x00)) = true := by
  decide
/-- A-2. -/
theorem test_addr_last_frame :
    nextIs (step ((frame 2 2 1).withFetchWord 8 1))
      (fun t => decide (statusByte t.status = 0x02 ∧ t.frameByteSize = 6 ∧ t.seekOffset = 6)) = true := by decide
/-- A-20: the product is exact; 64 bits would wrap to 0. -/
theorem test_addr_does_not_wrap :
    nextIs (exec .addr { frame 2048 2048 0x80000000000 with srcLen := 0xFFFFFFFFFFFFFFFF })
      (fun t => decide (statusByte t.status = 0x26 ∧ t.frameByteSize = 0)) = true := by decide
/-- K-17, the shift of b0 is not done in 8 bits. -/
theorem test_unpack_widens :
    nextIs (step ((packet [0xF0, 0x0F, 0x00] 3 2).withFetchWord 8 2))
      (fun t => decide (statusByte t.status = 0x02 ∧ t.out = [(0, 0x0F00), (1, 0x0F00)])) = true := by decide
/-- K-L7: the output is too long. -/
theorem test_unpack_out_too_long :
    nextIs (exec .unpack (packet [0xAA, 0xBB, 0xCC, 0xDD, 0xEE, 0xFF, 0x11] 6 5))
      (fun t => decide (statusByte t.status = 0x16 ∧ t.out = [] ∧ t.outLen = 5)) = true := by decide
/-- D-2. -/
theorem test_decode_frame :
    nextIs (step ((frame 2 2 1).withFetchWord 8 3))
      (fun t => decide (statusByte t.status = 0x02 ∧ t.dataLen = 6 ∧ t.outLen = 4 ∧
        t.chunk = cellsFrom 0 [0xAB, 0xCD, 0xEF, 0x00, 0xFF, 0x00] ∧
        t.out = [(0, 0x0ABC), (1, 0x0DEF), (2, 0x000F), (3, 0x0F00)])) = true := by decide
/-- D-11: the last byte is missing, nothing is padded. -/
theorem test_decode_short_source :
    nextIs (exec .decode { frame 2 2 1 with srcLen := 11 })
      (fun t => decide (statusByte t.status = 0x26 ∧ t.chunk = [] ∧ t.out = [])) = true := by decide
/-- R149, R115: with a silent source the block is busy, the frame registers are written and the lengths are not. -/
theorem test_decode_silent_source :
    nextIs (step ({ frame 2 2 1 with srcAck := false }.withFetchWord 8 3))
      (fun t => decide (statusByte t.status = 0x01 ∧ t.frameByteSize = 6 ∧ t.seekOffset = 6 ∧ t.dataLen = 0)) = true := by
  decide
/-- K-22, as the kernel takes it. -/
theorem test_triplet :
    nextIs (step (State.reset.withFetchWord 24 0xDEADBE))
      (fun t => decide (t.out = [(0, 0x0DEA), (1, 0x0DBE)] ∧ statusByte t.status = 0x02)) = true := by decide
/-- C-7. -/
theorem test_illegal_command :
    nextIs (step ((withStatus false true false 0).withFetchWord 8 5)) (fun t => decide (statusByte t.status = 0x46)) = true := by
  decide
/-- R-2. -/
theorem test_reset_addr :
    nextIs (step (State.reset.withFetchWord 8 1)) (fun t => decide (statusByte t.status = 0x36)) = true := by decide
/-- P4: after failing UNPACKs `OR 0` is undefined, never a value. -/
theorem test_out_undefined : refusedAs (performTxn (.outRead 0) State.reset) .undefinedOutCell = true := by decide
/-- R143: a word read during the run is old (0x0001) or new (K-L3's fourth word, 0x0EFF), whichever the free choice says. -/
theorem test_out_read_while_busy : wordBefore rerunState 3 = some 0x0001 ∧ wordAfter rerunState 3 = some 0x0EFF := by decide
/-- R143, R115: OUT_LEN read during the load of a DECODE is old (0) or new (2). -/
theorem test_register_read_while_busy : regBefore loadState .outLen = 0 ∧ regAfter loadState .outLen = 2 := by decide
/-- K-P2 (`LANES = 1`), the first of the steps: one triplet, K-L3's first two words. -/
theorem test_kernel_step :
    nextIs (step (kernelState 1)) (fun t => decide (t.out = [(0, 0x0AAB), (1, 0x0BCC)] ∧ statusByte t.status = 0x01)) = true := by
  decide

/-! ### The hypotheses of the statements can be met -/

theorem witness_DecodeOfEncodeIsTheInstruction :
    (Instr.triplet 0xFFF 0x000).wellFormed = true ∧ Instr.clear.wellFormed = true := by decide

theorem witness_DecodedBytesAreTheEncoding :
    decode .data24 [0xFF, 0xFF, 0xFF, 0x01] = .instr (.triplet 0xFFF 0xFFF) [0x01] ∧
      decode .cmd8 [0x04, 0x05] = .instr .clear [0x05] := by decide

/-- Boundary values of the equivalence: 0x04 is a command, 0x05 and 0xFF are rejected. -/
theorem witness_ReservedCommandBytesAreRejected :
    decode .cmd8 [0x04] ≠ .reject (.reservedCommand 0x04) ∧ decode .cmd8 [0x05] = .reject (.reservedCommand 0x05) ∧
      decode .cmd8 [0xFF] = .reject (.reservedCommand 0xFF) := by decide

theorem witness_ScriptLinesAndTransactionsAgree :
    decodeTxn ⟨.W, 0xF, 0⟩ = some (.writeReg 0xF 0) ∧ decodeTxn ⟨.R, 0x8, 0⟩ = some (.readReg 0x8) ∧
      decodeTxn ⟨.C, 0, 0xFF⟩ = some (.chunkWrite 0 0xFF) ∧ decodeTxn ⟨.O, 3, 0⟩ = some (.outRead 3) := by decide

theorem witness_UnpackFunctionIsABijection : (4095 : Word).toNat ≤ 4095 ∧ (0 : Word).toNat ≤ 4095 := by decide

theorem witness_ClearForgetsTheOutcome :
    (withStatus false true true 3).status.busy = false ∧ busyState.status.busy = true := by decide

theorem witness_CommandsAreDroppedWhileBusy : Instr.decode.format = .cmd8 ∧ busyState.status.busy = true := by decide

/-- A-2: the frame ends exactly at SRC_LEN. -/
theorem witness_AddrComputesTheFrame :
    ∃ (s : State) (n f o : Nat), n = s.rows.toNat * s.columns.toNat ∧ f = n * 3 / 2 ∧ o = f * s.frameIndex.toNat ∧
      s.status.busy = false ∧ s.bitDepth = 12 ∧ n % 2 = 0 ∧ o + f ≤ s.srcLen.toNat :=
  ⟨frame 2 2 1, 4, 6, 6, by decide⟩

/-- A-28: the format wins over the evenness and the range. -/
theorem witness_FrameCommandsReportTheFirstFailingCheck_format :
    ∃ (s : State) (n f o : Nat), n = s.rows.toNat * s.columns.toNat ∧ f = n * 3 / 2 ∧ o = f * s.frameIndex.toNat ∧
      s.status.busy = false ∧ s.bitDepth ≠ 12 ∧ n % 2 = 1 ∧ o + f > s.srcLen.toNat :=
  ⟨{ frame 3 3 0 with bitDepth := 8, srcLen := 0 }, 9, 13, 0, by decide⟩

/-- A-29: the evenness wins over the range. -/
theorem witness_FrameCommandsReportTheFirstFailingCheck_evenness :
    ∃ (s : State) (n f o : Nat), n = s.rows.toNat * s.columns.toNat ∧ f = n * 3 / 2 ∧ o = f * s.frameIndex.toNat ∧
      s.status.busy = false ∧ s.bitDepth = 12 ∧ n % 2 = 1 ∧ o + f > s.srcLen.toNat :=
  ⟨{ frame 3 3 0 with srcLen := 0 }, 9, 13, 0, by decide⟩

/-- A-4: one byte missing. -/
theorem witness_FrameCommandsReportTheFirstFailingCheck_range :
    ∃ (s : State) (n f o : Nat), n = s.rows.toNat * s.columns.toNat ∧ f = n * 3 / 2 ∧ o = f * s.frameIndex.toNat ∧
      s.status.busy = false ∧ s.bitDepth = 12 ∧ n % 2 = 0 ∧ o + f > s.srcLen.toNat :=
  ⟨{ frame 2 2 1 with srcLen := 11 }, 4, 6, 6, by decide⟩

theorem witness_FrameByteSizeIsThreeBytesPerPixelPair :
    0 % 2 = 0 ∧ 0 < 2 ^ 64 ∧ 4 % 2 = 0 ∧ 4 < 2 ^ 64 ∧ (2 ^ 64 - 2) % 2 = 0 ∧ 2 ^ 64 - 2 < 2 ^ 64 := by decide

theorem witness_OddPixelCountsNeverFillTriplets : 1 % 2 = 1 ∧ 9 % 2 = 1 := by decide

/-- The premises, and those of each clause: whole frames (indices 0, 1 of 2), two passing indices in a row, an empty frame. -/
theorem witness_FramesTileTheSource :
    ((frame 2 2 0).bitDepth = 12 ∧ (frame 2 2 0).rows.toNat * (frame 2 2 0).columns.toNat % 2 = 0 ∧
      0 < (frame 2 2 0).rows.toNat * (frame 2 2 0).columns.toNat * 3 / 2) ∧
      (frameRange { frame 2 2 0 with frameIndex := 0 }).toOption = some ⟨4, 6, 0⟩ ∧
      (frameRange { frame 2 2 0 with frameIndex := 1 }).toOption = some ⟨4, 6, 6⟩ ∧
      (frameRange { frame 2 2 0 with frameIndex := 2 }).toOption = none ∧
      (frame 0 5 0).rows.toNat * (frame 0 5 0).columns.toNat * 3 / 2 = 0 := by decide

/-- K-L3, and K-L1 where nothing is written. -/
theorem witness_UnpackFillsTheOutputBuffer :
    ∃ (s : State) (l m : Nat), l = s.dataLen.toNat ∧ m = s.outLen.toNat ∧ s.status.busy = false ∧
      fits s.params.chunkCap l = true ∧ fits s.params.outCap m = true ∧ l % 3 = 0 ∧ m = l / 3 * 2 ∧
      ∀ j, j < l → Memory.read s.chunk j ≠ none :=
  ⟨capped 6 4 (packet [0xAA, 0xBB, 0xCC, 0xDD, 0xEE, 0xFF] 6 4), 6, 4, by decide⟩

/-- K-L4 and K-L7. -/
theorem witness_UnpackRejectsLengthsThatDoNotMatch :
    (∃ (s : State) (l m : Nat), l = s.dataLen.toNat ∧ m = s.outLen.toNat ∧ s.status.busy = false ∧
      fits s.params.chunkCap l = true ∧ fits s.params.outCap m = true ∧ l % 3 ≠ 0) ∧
    ∃ (s : State) (l m : Nat), l = s.dataLen.toNat ∧ m = s.outLen.toNat ∧ s.status.busy = false ∧
      fits s.params.chunkCap l = true ∧ fits s.params.outCap m = true ∧ m ≠ l / 3 * 2 :=
  ⟨⟨packet [] 7 4, 7, 4, by decide⟩, ⟨packet [] 6 5, 6, 5, by decide⟩⟩

theorem witness_UnpackRefusesUndefinedCells :
    ∃ (s : State) (l j : Nat), l = s.dataLen.toNat ∧ s.status.busy = false ∧ fits s.params.chunkCap l = true ∧
      fits s.params.outCap s.outLen.toNat = true ∧ l % 3 = 0 ∧ s.outLen.toNat = l / 3 * 2 ∧ j < l ∧
      Memory.read s.chunk j = none :=
  ⟨packet [0xAB, 0xCD] 3 2, 3, 2, by decide⟩

theorem witness_BuffersBeyondCapacityAreRefused_unpack :
    (capped 5 4 (packet [] 6 4)).status.busy = false ∧
      fits (capped 5 4 (packet [] 6 4)).params.chunkCap (packet [] 6 4).dataLen.toNat = false ∧
      fits (capped 6 3 (packet [] 6 4)).params.chunkCap (packet [] 6 4).dataLen.toNat = true ∧
      fits (capped 6 3 (packet [] 6 4)).params.outCap (packet [] 6 4).outLen.toNat = false := by decide

theorem witness_BuffersBeyondCapacityAreRefused_decode :
    (frameRange (capped 5 4 (frame 2 2 1))).toOption = some ⟨4, 6, 6⟩ ∧
      fits (capped 5 4 (frame 2 2 1)).params.chunkCap 6 = false ∧
      fits (capped 6 3 (frame 2 2 1)).params.chunkCap 6 = true ∧
      fits (capped 6 3 (frame 2 2 1)).params.outCap 4 = false := by decide

theorem witness_OrderOfTripletsDoesNotMatter :
    Memory.wf ([(7, 0x0001)] : Memory 16) = true ∧ [1, 0].Perm (List.range 2) ∧ 0 + 2 = 2 := by decide

theorem witness_KernelIsItsClosedForm :
    unpackRange (cellsFrom 0 [0xAB, 0xCD, 0xEF]) 1 0 [(2, 7)] = some [(0, 0x0ABC), (1, 0x0DEF), (2, 7)] := by decide

theorem witness_TripletWritesItsTwoSamples : (kernelState 1).seq = .run unpackRecord := by decide

theorem witness_TripletAtRestHasNoEffect :
    (∀ r, State.reset.seq ≠ .run r) ∧ ∀ r, loadState.seq ≠ .run r :=
  ⟨fun _ h => (by cases h), fun _ h => (by cases h)⟩

/-- One lane, which leaves the kernel running, and three lanes, which end the command. -/
theorem witness_KernelStepTakesOneTripletPerLane :
    (∃ (s : State) (r : Running) (g : Nat), s.seq = .run r ∧ g = min s.params.lanes (r.nL - r.ti) ∧ r.ti ≤ r.nL ∧
      r.ti + g < r.nL ∧ ∀ j, j < 3 * (r.ti + g) → Memory.read s.chunk j ≠ none) ∧
    ∃ (s : State) (r : Running) (g : Nat), s.seq = .run r ∧ g = min s.params.lanes (r.nL - r.ti) ∧ r.ti ≤ r.nL ∧
      r.ti + g = r.nL ∧ ∀ j, j < 3 * (r.ti + g) → Memory.read s.chunk j ≠ none :=
  ⟨⟨kernelState 1, unpackRecord, 1, by decide⟩, ⟨kernelState 3, unpackRecord, 2, by decide⟩⟩

/-- D-2; each of the two alternatives about the source. -/
theorem witness_DecodeReadsAndUnpacksTheFrame :
    (∃ (s : State) (n f o : Nat), n = s.rows.toNat * s.columns.toNat ∧ f = n * 3 / 2 ∧ o = f * s.frameIndex.toNat ∧
      s.status.busy = false ∧ s.bitDepth = 12 ∧ n % 2 = 0 ∧ o + f ≤ s.srcLen.toNat ∧
      fits s.params.chunkCap f = true ∧ fits s.params.outCap n = true ∧ s.srcAck = true ∧
      ∀ j, j < f → Memory.read s.src (o + j) ≠ none) ∧
    ∃ (s : State) (n f o : Nat), n = s.rows.toNat * s.columns.toNat ∧ f = n * 3 / 2 ∧ o = f * s.frameIndex.toNat ∧
      s.status.busy = false ∧ s.bitDepth = 12 ∧ n % 2 = 0 ∧ o + f ≤ s.srcLen.toNat ∧ f = 0 ∧ s.srcAck = false ∧
      fits s.params.chunkCap f = true ∧ fits s.params.outCap n = true ∧
      ∀ j, j < f → Memory.read s.src (o + j) ≠ none :=
  ⟨⟨capped 6 4 (frame 2 2 1), 4, 6, 6, by decide⟩, ⟨{ frame 0 2 1 with srcAck := false }, 0, 0, 0, by decide⟩⟩

/-- D-2 has a successful DECODE and a last pixel (1, 1). -/
theorem witness_RowMajorViewOfADecodedFrame :
    ∃ (s t : State) (n f o r c : Nat), n = s.rows.toNat * s.columns.toNat ∧ f = n * 3 / 2 ∧
      o = f * s.frameIndex.toNat ∧ s.status.busy = false ∧ exec .decode s = .next t ∧ statusByte t.status = 0x02 ∧
      r < s.rows.toNat ∧ c < s.columns.toNat :=
  ⟨frame 2 2 1, _, 4, 6, 6, 1, 1, rfl, rfl, rfl, rfl, rfl, by decide⟩

theorem witness_DecodeIsAddrLoadUnpack_failing :
    State.reset.status.busy = false ∧ State.reset.params.reading = .bigStep ∧ State.reset.bitDepth ≠ 12 ∧
      (frame 3 3 0).rows.toNat * (frame 3 3 0).columns.toNat % 2 = 1 ∧ 6 * 2 + 6 > (frame 2 2 2).srcLen.toNat := by decide

theorem witness_DecodeIsAddrLoadUnpack :
    ∃ (s : State) (n f o : Nat) (bytes : List Byte), n = s.rows.toNat * s.columns.toNat ∧ f = n * 3 / 2 ∧
      o = f * s.frameIndex.toNat ∧ s.status.busy = false ∧ s.params.reading = .bigStep ∧ s.bitDepth = 12 ∧ n % 2 = 0 ∧
      o + f ≤ s.srcLen.toNat ∧ fits s.params.chunkCap f = true ∧ fits s.params.outCap n = true ∧
      (s.srcAck = true ∨ f = 0) ∧ bytes.length = f ∧ ∀ j, j < f → Memory.read s.src (o + j) = bytes[j]? :=
  ⟨frame 2 2 1, 4, 6, 6, [0xAB, 0xCD, 0xEF, 0x00, 0xFF, 0x00], by decide⟩

/-- Two states that differ in CHUNK, OUT, the lengths, LANES and FRAME_COUNT, and agree on what DECODE reads. -/
theorem witness_DecodeDependsOnItsInputsAlone :
    ∃ (s t s' : State) (n f o : Nat), n = s.rows.toNat * s.columns.toNat ∧ f = n * 3 / 2 ∧
      o = f * s.frameIndex.toNat ∧ s.status.busy = false ∧ t.status.busy = false ∧ t.bitDepth = s.bitDepth ∧
      t.rows = s.rows ∧ t.columns = s.columns ∧ t.frameIndex = s.frameIndex ∧ t.srcLen = s.srcLen ∧
      t.srcAck = s.srcAck ∧ t.params.chunkCap = s.params.chunkCap ∧ t.params.outCap = s.params.outCap ∧
      (∀ j, j < f → Memory.read t.src (o + j) = Memory.read s.src (o + j)) ∧ exec .decode s = .next s' ∧
      statusByte s'.status = 0x02 ∧ s ≠ t :=
  ⟨frame 2 2 1,
    { frame 2 2 1 with
      chunk := [(0, 1)], out := [(9, 1)], outLen := 99, frameCount := 7, params := { Params.default with lanes := 4 } },
    _, 4, 6, 6, rfl, rfl, rfl, rfl, rfl, rfl, rfl, rfl, rfl, rfl, rfl, rfl, rfl, by decide, rfl, by decide, by decide⟩

theorem witness_DecodeIsIdempotent :
    ∃ s t : State, Memory.wf s.chunk = true ∧ Memory.wf s.out = true ∧ exec .decode s = .next t ∧
      statusByte t.status = 0x02 :=
  ⟨frame 2 2 1, _, rfl, rfl, rfl, by decide⟩

/-- A-2 with a silent source: the frame ends exactly at SRC_LEN and fills both capacities. -/
theorem witness_DecodeWaitsOnASilentSource :
    ∃ (s : State) (n f o : Nat), n = s.rows.toNat * s.columns.toNat ∧ f = n * 3 / 2 ∧ o = f * s.frameIndex.toNat ∧
      s.status.busy = false ∧ s.bitDepth = 12 ∧ n % 2 = 0 ∧ o + f ≤ s.srcLen.toNat ∧
      fits s.params.chunkCap f = true ∧ fits s.params.outCap n = true ∧ 0 < f ∧ s.srcAck = false ∧
      s.params.wellFormed = true :=
  ⟨{ capped 6 4 (frame 2 2 1) with srcAck := false }, 4, 6, 6, by decide⟩

theorem witness_DecodeRefusesASourceThatContradictsItsLength :
    ∃ (s : State) (f : FrameRange) (j : Nat), s.status.busy = false ∧ frameRange s = .ok f ∧
      fits s.params.chunkCap f.bytes = true ∧ fits s.params.outCap f.pixels = true ∧ s.srcAck = true ∧ j < f.bytes ∧
      Memory.read s.src (f.offset + j) = none :=
  ⟨{ frame 2 2 2 with srcLen := 18 }, ⟨4, 6, 12⟩, 5, rfl, rfl, by decide⟩

theorem witness_ErrorsChangeNothingButStatus :
    ∃ (i : Instr) (s t : State), i.format = .cmd8 ∧ exec i s = .next t ∧ t.status.err = true :=
  ⟨.decode, State.reset, _, rfl, rfl, rfl⟩

/-- Every command of the table in an idle state, each with an error it can raise where it can raise one. -/
theorem witness_CommandsRaiseOnlyTheirErrors :
    State.reset.status.busy = false ∧ nextIs (exec .nop State.reset) (fun _ => true) = true ∧
      nextIs (exec .addr { frame 2 2 2 with rows := 2 }) (fun t => decide (t.status.errCode = 2)) = true ∧
      nextIs (exec .unpack (packet [] 7 4)) (fun t => decide (t.status.errCode = 1)) = true ∧
      nextIs (exec .decode State.reset) (fun t => decide (t.status.errCode = 3)) = true ∧
      nextIs (exec .clear State.reset) (fun _ => true) = true ∧ 0x05 ≤ (0x05 : Byte).toNat := by decide

theorem witness_NoCommandWritesTheGeometryOrTheSource : ∃ (i : Instr) (s t : State), exec i s = .next t :=
  ⟨.decode, frame 2 2 1, _, rfl⟩

/-- Values at the top of a 32-bit and of a 65-bit register. -/
theorem witness_WrittenRegistersReadBack :
    State.reset.status.busy = false ∧ Reg.rows ∈ [Reg.rows, .columns, .bitDepth, .frameCount, .frameIndex, .dataLen, .outLen] ∧
      (0xFFFFFFFF : BitVec 129).toNat < 2 ^ Reg.rows.width ∧
      (0x1FFFFFFFFFFFFFFFF : BitVec 129).toNat < 2 ^ Reg.outLen.width := by decide

theorem witness_ReadOnlyAndReservedWritesAreIgnored :
    0x8 ≤ (0x8 : BitVec 4).toNat ∧ 0xC ≤ (0xC : BitVec 4).toNat ∧ 0xC ≤ (0xF : BitVec 4).toNat := by decide

theorem witness_HostWritesAreDroppedWhileBusy : busyState.status.busy = true := by decide

/-- Each clause of the read: a reserved number at both ends, CMD, the idle case, a running DECODE, a running UNPACK. -/
theorem witness_RegisterReadsReturnTheRegister :
    0xC ≤ (0xC : BitVec 4).toNat ∧ 0xC ≤ (0xF : BitVec 4).toNat ∧ regOfNumber 0x7 = some .cmd ∧
      State.reset.status.busy = false ∧ loadState.status.busy = true ∧ runningOf loadState = some loadRecord ∧
      loadRecord.op = .decode ∧ (kernelState 1).status.busy = true ∧ runningOf (kernelState 1) = some unpackRecord ∧
      unpackRecord.op ≠ .decode := by decide

/-- The last cell below CHUNK_CAP = 6 and the first beyond it. -/
theorem witness_ChunkWriteDefinesTheCell :
    (capped 6 4 State.reset).status.busy = false ∧ busyState.status.busy = true ∧
      fits (capped 6 4 State.reset).params.chunkCap ((5 : BitVec 65).toNat + 1) = true ∧
      fits (capped 6 4 State.reset).params.chunkCap ((6 : BitVec 65).toNat + 1) = false := by decide

theorem witness_LoadChunkPlacesThePacket :
    (capped 3 4 State.reset).status.busy = false ∧ ([0xAB, 0xCD, 0xEF] : List Byte).length < 2 ^ 65 ∧
      fits (capped 3 4 State.reset).params.chunkCap ([0xAB, 0xCD, 0xEF] : List Byte).length = true := by decide

/-- A defined word while idle and a cell never written; while busy the last word below m_l and the first one beyond, with old
contents and without; the last index below OUT_CAP = 4 and the first one beyond. -/
theorem witness_OutReadReturnsTheWord :
    fits State.reset.params.outCap ((0 : BitVec 65).toNat + 1) = true ∧
      Memory.read { State.reset with out := [(0, 0x0ABC)] }.out (0 : BitVec 65).toNat = some 0x0ABC ∧
      State.reset.status.busy = false ∧ Memory.read State.reset.out (0 : BitVec 65).toNat = none ∧
      rerunState.status.busy = true ∧ rerunState.seq = .run rerunRecord ∧
      (3 : BitVec 65).toNat < rerunRecord.mL ∧ rerunRecord.mL ≤ (4 : BitVec 65).toNat ∧
      Memory.read rerunRecord.before.out (3 : BitVec 65).toNat = some 0x0001 ∧
      Memory.read rerunState.out (4 : BitVec 65).toNat = some 0x0002 ∧
      Memory.read unpackRecord.before.out (3 : BitVec 65).toNat = none ∧
      loadState.status.busy = true ∧ loadState.seq = .load loadRecord ∧ (1 : BitVec 65).toNat < loadRecord.mL ∧
      fits (capped 6 4 State.reset).params.outCap ((3 : BitVec 65).toNat + 1) = true ∧
      fits (capped 6 4 State.reset).params.outCap ((4 : BitVec 65).toNat + 1) = false := by decide

/-- Each clause: while busy a source of another length, another byte at the same length, and the source already there. -/
theorem witness_TheSourceChangesOnlyBetweenCommands :
    State.reset.status.busy = false ∧ (0, (0x12 : Byte)) ∈ [(0, (0x12 : Byte)), (1, 0x34)] ∧ 0 < (1 : BitVec 64).toNat ∧
      loadState.status.busy = true ∧ (11 : BitVec 64) ≠ loadState.srcLen ∧ (12 : BitVec 64) = loadState.srcLen ∧
      Memory.read (Memory.ofCells (12 : BitVec 64).toNat ((0, 0x13) :: source.tail)) 0 ≠ Memory.read loadState.src 0 ∧
      Memory.ofCells (12 : BitVec 64).toNat source = loadState.src := by decide

theorem witness_ResetClearsEveryRegister : Reg.seekOffset ≠ .srcLen := by decide

/-- Each clause: DECODE presented to an idle block in either reading, and to a busy one. -/
theorem witness_StepRunsThePresentedCommand :
    ((frame 2 2 1).withFetchWord 8 3).agenda = .host (.writeReg 0x7 3) :: [] ∧
      decode .cmd8 [(3 : BitVec 129).setWidth 8] = .instr .decode [] ∧
      ((frame 2 2 1).withFetchWord 8 3).status.busy = false ∧
      ((frame 2 2 1).withFetchWord 8 3).params.reading = .bigStep ∧
      ((micro (frame 2 2 1)).withFetchWord 8 3).params.reading = .microStep ∧
      (busyState.withFetchWord 8 3).status.busy = true ∧
      (busyState.withFetchWord 8 3).agenda = .host (.writeReg 0x7 3) :: [] := by decide

theorem witness_StepReportsIllegalCommands :
    (State.reset.withFetchWord 8 5).agenda = .host (.writeReg 0x7 5) :: [] ∧
      (State.reset.withFetchWord 8 5).status.busy = false ∧ 0x05 ≤ (5 : BitVec 129).toNat % 256 ∧
      0x05 ≤ (0xFF : BitVec 129).toNat % 256 ∧ (busyState.withFetchWord 8 5).agenda = .host (.writeReg 0x7 5) :: [] ∧
      (busyState.withFetchWord 8 5).status.busy = true := by decide

theorem witness_StepRunsTheTripletAtTheIndex :
    (kernelState 1).agenda = [] ∧ (kernelState 1).seq = .run unpackRecord ∧ unpackRecord.ti < unpackRecord.nL ∧
      (kernelState 1).params.lanes = 1 ∧ Memory.read (kernelState 1).chunk 0 = some 0xAA ∧
      Memory.read (kernelState 1).chunk 1 = some 0xBB ∧ Memory.read (kernelState 1).chunk 2 = some 0xCC ∧
      decode .data24 [0xAA, 0xBB, 0xCC] = .instr (.triplet 0xAAB 0xBCC) [] := by decide

theorem witness_IdleBlockWaits : State.reset.agenda = [] ∧ State.reset.seq = .idle := by decide

theorem witness_StepNeverWritesTheSource :
    ∃ s t : State, step s = .next t ∧ ∀ len cells, s.agenda.head? ≠ some (.setSource len cells) :=
  ⟨(frame 2 2 1).withFetchWord 8 3, _, rfl, fun _ _ h => by cases h⟩

theorem witness_MicroStepsOfUnpackReachTheBigStep :
    (packet [0xAB, 0xCD, 0xEF] 3 2).status.busy = false ∧ (packet [0xAB, 0xCD, 0xEF] 3 2).params.wellFormed = true ∧
      (packet [0xAB, 0xCD, 0xEF] 3 2).dataLen.toNat / 3 ≤ 1 := by decide

/-- The load's move at its first byte, which is not the last, and at its last. -/
theorem witness_MicroStepsOfDecodeReachTheBigStep_load :
    loadState.seq = .load loadRecord ∧ loadState.srcAck = true ∧
      Memory.read loadState.src (loadRecord.seekL + loadRecord.lj) = some 0x12 ∧ loadRecord.lj + 1 ≠ loadRecord.fbsL ∧
      Memory.read loadState.src (loadRecord.seekL + { loadRecord with lj := 2 }.lj) = some 0x56 ∧
      { loadRecord with lj := 2 }.lj + 1 = loadRecord.fbsL := by decide

theorem witness_MicroStepsOfDecodeReachTheBigStep :
    ∃ (s : State) (n f k : Nat), n = s.rows.toNat * s.columns.toNat ∧ f = n * 3 / 2 ∧ s.status.busy = false ∧
      s.params.wellFormed = true ∧ f + f / 3 ≤ k :=
  ⟨frame 2 2 1, 4, 6, 8, by decide⟩

/-- The invariant holds in LOAD. -/
theorem loadState_inv : loadState.Inv := by
  refine ⟨rfl, by unfold StatusInv; decide,
    ⟨rfl, rfl, rfl, fun _ _ h => (by cases h), fun _ _ h => (by cases h), fun a b h => ?_⟩, rfl,
    by unfold LatchInv; decide, by unfold FrameLatched; decide, by decide, rfl, rfl, fun j h => absurd h (Nat.not_lt_zero j),
    ⟨rfl, fun k => (if_neg (Nat.not_lt_zero k)).symm⟩, rfl, rfl⟩
  have key : ∀ c ∈ source, c.1 < 12 := by decide
  exact key _ (Memory.mem_of_read h)

/-- The invariant holds in RUN. -/
theorem kernelState_inv : (kernelState 1).Inv :=
  ⟨rfl, by unfold StatusInv; decide, ⟨rfl, rfl, rfl, fun _ _ _ => rfl, fun _ _ h => (by cases h), fun _ _ h => (by cases h)⟩, rfl,
    by unfold LatchInv; decide, by decide, by decide, rfl, rfl,
    ⟨rfl, fun k => (if_neg (Nat.not_lt_zero k)).symm⟩, .inl ⟨rfl, rfl, rfl, rfl, rfl, rfl, rfl, rfl⟩⟩

theorem witness_EveryRunningCommandEnds :
    loadState.Inv ∧ loadState.srcAck = true ∧ Supplied loadState ∧ loadState.seq ≠ .idle ∧ remainingMoves loadState ≤ 4 := by
  refine ⟨loadState_inv, rfl, fun j _ h => ?_, by decide, by decide⟩
  have key : ∀ j, j < 3 → Memory.read source (srcAddr 0 j) ≠ none := by decide
  exact key j h

theorem witness_EveryRunningCommandEnds_run :
    (kernelState 1).Inv ∧ (kernelState 1).srcAck = true ∧ Supplied (kernelState 1) ∧ (kernelState 1).seq ≠ .idle ∧
      remainingMoves (kernelState 1) ≤ 2 := by
  refine ⟨kernelState_inv, rfl, fun j _ h => ?_, by decide, by decide⟩
  have key : ∀ j, j < 6 → Memory.read (kernelState 1).chunk j ≠ none := by decide
  exact key j h

/-- A silent source is no breach of the invariant. -/
theorem witness_EveryRunningCommandEnds_silent :
    State.Inv { loadState with srcAck := false } ∧ { loadState with srcAck := false }.seq = .load loadRecord :=
  ⟨loadState_inv, rfl⟩

theorem witness_StatusTakesSevenValues : loadState.Inv ∧ statusByte loadState.status = 0x01 :=
  ⟨loadState_inv, by decide⟩

theorem witness_HiddenStateFitsItsWidths : loadState.Inv ∧ runningOf loadState = some loadRecord :=
  ⟨loadState_inv, by decide⟩

theorem witness_StepKeepsTheInvariant : ∃ s t : State, s.Inv ∧ step s = .next t :=
  ⟨loadState, _, loadState_inv, rfl⟩

end Sys2Proof.Tests
end

namespace Sys2Proof.Machine

/-! ## The state's rules: what the memories, STATUS and the sequencer keep -/

/-! ### Memories -/

/-- A write of a cell within the capacity. -/
theorem memoryInv_writeChunk {s : State} {j : Nat} (b : Byte) (h : MemoryInv s)
    (hf : fits s.params.chunkCap (j + 1) = true) : MemoryInv { s with chunk := s.chunk.write j b } := by
  obtain ⟨hc, ho, hs, capC, capO, capS⟩ := h
  refine ⟨Memory.write_wf _ _ hc, ho, hs, fun a v ha => ?_, capO, capS⟩
  rw [Memory.read_write] at ha
  split_ifs at ha with e
  · exact e ▸ hf
  · exact capC a v ha

/-- A load of a frame within the capacity. -/
theorem memoryInv_loadRange {s : State} {offset n : Nat} {chunk : Memory 8} (h : MemoryInv s)
    (hf : fits s.params.chunkCap n = true) (hl : loadRange s.src offset n 0 s.chunk = some chunk) :
    MemoryInv { s with chunk := chunk } := by
  obtain ⟨hc, ho, hs, capC, capO, capS⟩ := h
  obtain ⟨hread, -, hwf⟩ := loadRange_spec hl
  refine ⟨hwf hc, ho, hs, fun a v ha => ?_, capO, capS⟩
  rw [hread] at ha
  split_ifs at ha with e
  · exact fits_mono (by omega) hf
  · exact capC a v ha

/-- Iterations of the kernel whose words lie within the capacity. -/
theorem memoryInv_unpackRange {s : State} {n i : Nat} {out : Memory 16} (h : MemoryInv s)
    (hf : fits s.params.outCap (2 * (i + n)) = true) (hu : unpackRange s.chunk n i s.out = some out) :
    MemoryInv { s with out := out } := by
  obtain ⟨hc, ho, hs, capC, capO, capS⟩ := h
  obtain ⟨hread, -, hwf⟩ := unpackRange_spec hu
  refine ⟨hc, hwf ho, hs, capC, fun k w hk => ?_, capS⟩
  rw [hread] at hk
  split_ifs at hk with e
  · exact ⟨fits_mono (by omega) hf, sampleOf_le hk⟩
  · exact capO k w hk

/-- Another source: its cells lie below its length (R33). -/
theorem memoryInv_setSource {s : State} (len : BitVec 64) (cells : List (Nat × Byte)) (h : MemoryInv s) :
    MemoryInv { s with srcLen := len, src := Memory.ofCells len.toNat cells } := by
  obtain ⟨hc, ho, -, capC, capO, -⟩ := h
  exact ⟨hc, ho, Memory.ofCells_wf _ _, capC, capO, fun a b ha => (Memory.of_read_ofCells ha).1⟩

/-- With no cell of CHUNK and OUT defined only the source's part is left. -/
theorem memoryInv_applyReset {s : State} (h : MemoryInv s) : MemoryInv (applyReset s) := by
  obtain ⟨-, -, hs, -, -, capS⟩ := h
  exact ⟨rfl, rfl, hs, fun _ _ hj => (by cases hj), fun _ _ hk => (by cases hk), capS⟩

/-! ### STATUS -/

theorem statusInv_reset : StatusInv Status.reset := by simp [StatusInv, Status.reset]

theorem statusInv_forgotten (st : Status) : StatusInv (statusForgotten st) := by simp [StatusInv]

theorem statusInv_accepted (st : Status) : StatusInv (statusAccepted st) := by simp [StatusInv]

theorem statusInv_error (e : ErrorKind) : StatusInv (statusError e) := by
  cases e <;> simp [StatusInv, errorCode]

theorem statusInv_done {st : Status} (h : StatusInv st) : StatusInv (statusDone st) := by
  obtain ⟨herr, -, -, hcode⟩ := h
  exact ⟨herr, fun _ => rfl, fun hb => (by cases hb), hcode⟩

/-! ### The invariant by the phase of the sequencer -/

section Phases
variable {s : State} {r : Running}

theorem inv_idle_iff (hs : s.seq = .idle) :
    s.Inv ↔ s.params.wellFormed = true ∧ StatusInv s.status ∧ MemoryInv s ∧ s.status.busy = false := by
  simp only [State.Inv, SequencerInv, hs]

theorem inv_load_iff (hs : s.seq = .load r) :
    s.Inv ↔ s.params.wellFormed = true ∧ StatusInv s.status ∧ MemoryInv s ∧ s.status.busy = true ∧ LoadInv s r := by
  simp only [State.Inv, SequencerInv, hs]

theorem inv_run_iff (hs : s.seq = .run r) :
    s.Inv ↔ s.params.wellFormed = true ∧ StatusInv s.status ∧ MemoryInv s ∧ s.status.busy = true ∧ RunInv s r := by
  simp only [State.Inv, SequencerInv, hs]

theorem inv_of_idle (hs : s.seq = .idle) (hp : s.params.wellFormed = true) (hst : StatusInv s.status)
    (hm : MemoryInv s) (hb : s.status.busy = false) : s.Inv := (inv_idle_iff hs).2 ⟨hp, hst, hm, hb⟩

theorem inv_of_load (hs : s.seq = .load r) (hp : s.params.wellFormed = true) (hst : StatusInv s.status)
    (hm : MemoryInv s) (hb : s.status.busy = true) (hr : LoadInv s r) : s.Inv :=
  (inv_load_iff hs).2 ⟨hp, hst, hm, hb, hr⟩

theorem inv_of_run (hs : s.seq = .run r) (hp : s.params.wellFormed = true) (hst : StatusInv s.status)
    (hm : MemoryInv s) (hb : s.status.busy = true) (hr : RunInv s r) : s.Inv :=
  (inv_run_iff hs).2 ⟨hp, hst, hm, hb, hr⟩

end Phases

/-- While no command runs the sequencer is idle (R24, R39). -/
theorem seq_idle_of_inv {s : State} (h : s.Inv) (hb : s.status.busy = false) : s.seq = .idle := by
  cases hs : s.seq with
  | idle => rfl
  | load r =>
    obtain ⟨-, -, -, hbusy, -⟩ := (inv_load_iff hs).1 h
    exact absurd hbusy (by simp [hb])
  | run r =>
    obtain ⟨-, -, -, hbusy, -⟩ := (inv_run_iff hs).1 h
    exact absurd hbusy (by simp [hb])

/-- The invariant speaks of none of the read ports, the source's answering, the agenda and the count of free values. -/
theorem inv_ports_iff (s : State) (ack : Bool) (hRdata : BitVec 129) (orData : Word) (agenda : List Event)
    (freeCount : Nat) :
    State.Inv { s with srcAck := ack, hRdata := hRdata, orData := orData, agenda := agenda, freeCount := freeCount } ↔
      s.Inv := Iff.rfl

/-- A command that completes (R112) leaves a legal state when its results are legal. -/
theorem finish_inv {s : State} (hp : s.params.wellFormed = true) (hst : StatusInv s.status) (hm : MemoryInv s) :
    (finish s).Inv :=
  inv_of_idle rfl hp (statusInv_done hst) hm rfl

/-- A command that fails (R129) leaves a legal state. -/
theorem raiseError_inv {s : State} (e : ErrorKind) (hp : s.params.wellFormed = true) (hm : MemoryInv s) :
    (raiseError e s).Inv :=
  inv_of_idle rfl hp (statusInv_error e) hm rfl

/-! ### The parts of a running command's invariant -/

/-- One more byte of the frame (R104). -/
theorem copied_succ {s : State} {r : Running} {n : Nat} {b : Byte} (h : Copied s r n)
    (hb : Memory.read s.src (srcAddr r.seekL n) = some b) :
    Copied { s with chunk := s.chunk.write n b } r (n + 1) := by
  intro j hj
  by_cases e : j = n
  · subst e
    simp [hb]
  · simpa [Memory.read_write_other _ _ e] using h j (by omega)

/-- As long as no triplet has been unpacked OUT is the old one. -/
theorem mixtureInv_iff_of_ti_zero {s : State} {r : Running} (hti : r.ti = 0) :
    MixtureInv s r ↔ Memory.wf r.before.out = true ∧ ∀ k, Memory.read s.out k = Memory.read r.before.out k := by
  simp [MixtureInv, hti]

/-- Until then the mixture does not depend on CHUNK, so a byte that arrives keeps it. -/
theorem mixtureInv_of_ti_zero {s t : State} {r q : Running} (h : MixtureInv s r) (hr : r.ti = 0) (hq : q.ti = 0)
    (hout : t.out = s.out) (hbefore : q.before = r.before) : MixtureInv t q := by
  rw [mixtureInv_iff_of_ti_zero hq, hbefore, hout]
  exact (mixtureInv_iff_of_ti_zero hr).1 h

/-- At acceptance the record of the old words is OUT itself (R115). -/
theorem mixtureInv_of_accepted {s : State} {r : Running} (hm : MemoryInv s) (hti : r.ti = 0)
    (hbefore : r.before.out = s.out) : MixtureInv s r := by
  obtain ⟨-, hwf, -⟩ := hm
  rw [mixtureInv_iff_of_ti_zero hti, hbefore]
  exact ⟨hwf, fun _ => rfl⟩

/-- `g` triplets more (R48, R83). -/
theorem mixtureInv_iterated {s : State} {r : Running} {g : Nat} {out : Memory 16} (lanes : List Lane)
    (h : MixtureInv s r) (hu : unpackRange s.chunk g r.ti s.out = some out) :
    MixtureInv (iterated s r out (r.ti + g) lanes) { r with ti := r.ti + g, laneRegs := lanes } := by
  obtain ⟨hwf, hmix⟩ := h
  obtain ⟨hread, -, -⟩ := unpackRange_spec hu
  refine ⟨hwf, fun k => ?_⟩
  change Memory.read out k = if k < 2 * (r.ti + g) then sampleOf s.chunk k else Memory.read r.before.out k
  rw [hread, hmix]
  by_cases hk : k < 2 * r.ti
  · rw [if_neg (by omega), if_pos hk, if_pos (by omega)]
  · have hnew : (r.ti ≤ k / 2 ∧ k / 2 < r.ti + g) ↔ k < 2 * (r.ti + g) := by omega
    simp only [if_neg hk, hnew]

/-! ### Entering and leaving LOAD and RUN -/

/-- The record of a DECODE accepted in `s` whose frame is `f` (R115). -/
def frameRecord (f : FrameRange) (s : State) : Running where
  op := .decode
  fbsL := f.bytes
  seekL := f.offset
  nL := f.bytes / 3
  mL := f.pixels
  lj := 0
  ti := 0
  laneRegs := []
  before := beforeOf s

theorem enterLoad_seq_eq_frameRecord (f : FrameRange) (s : State) :
    (enterLoad f s).seq = .load (frameRecord f s) := rfl

theorem frameLatched_frameRecord {s : State} {f : FrameRange} (hf : frameRange s = .ok f) :
    FrameLatched (enterLoad f s) (frameRecord f s) := by
  obtain ⟨hbytes, hoffset, -, -, hthree, hrange⟩ := frameRange_bounds hf
  obtain ⟨-, -, -, hframe⟩ := frameRange_eq_ok.1 hf
  refine ⟨rfl, ?_, by rw [hframe]; rfl, by rw [hframe]; rfl, hrange, ?_, ?_⟩
  · simp only [frameRecord]; omega
  · simp only [enterLoad_frameByteSize, frameRecord, BitVec.toNat_ofNat]; omega
  · simp only [enterLoad_seekOffset, frameRecord, BitVec.toNat_ofNat]; omega

theorem latchInv_frameRecord {s : State} {f : FrameRange} (hf : frameRange s = .ok f)
    (hc : fits s.params.chunkCap f.bytes = true) (ho : fits s.params.outCap f.pixels = true) (h0 : f.bytes ≠ 0) :
    LatchInv (enterLoad f s) (frameRecord f s) := by
  obtain ⟨hbytes, -, -, heven, hthree, -⟩ := frameRange_bounds hf
  have htriplets : 3 * (f.bytes / 3) = f.bytes := by omega
  refine ⟨?_, ?_, ?_, ?_, ho⟩
  · simp only [frameRecord]; omega
  · simp only [frameRecord]; omega
  · simp only [frameRecord]; omega
  · simpa only [frameRecord, htriplets, enterLoad_params] using hc

/-- An accepted DECODE waits for its first byte in a legal state (R115). -/
theorem enterLoad_inv {s : State} {f : FrameRange} (hp : s.params.wellFormed = true) (hm : MemoryInv s)
    (hf : frameRange s = .ok f) (hc : fits s.params.chunkCap f.bytes = true)
    (ho : fits s.params.outCap f.pixels = true) (h0 : f.bytes ≠ 0) : (enterLoad f s).Inv := by
  have hload : LoadInv (enterLoad f s) (frameRecord f s) :=
    ⟨latchInv_frameRecord hf hc ho h0, frameLatched_frameRecord hf, Nat.pos_of_ne_zero h0, rfl, rfl,
      fun j hj => absurd hj (Nat.not_lt_zero j), mixtureInv_of_accepted hm rfl rfl, rfl, rfl⟩
  exact inv_of_load (enterLoad_seq_eq_frameRecord f s) hp (statusInv_accepted _) hm rfl hload

/-- The record of an UNPACK accepted in `s` (R115). -/
def unpackRecord (s : State) : Running where
  op := .unpack
  fbsL := 0
  seekL := 0
  nL := s.dataLen.toNat / 3
  mL := s.outLen.toNat
  lj := 0
  ti := 0
  laneRegs := []
  before := beforeOf s

/-- An accepted UNPACK is in RUN in a legal state (R115). -/
theorem enterRun_inv {s : State} (hp : s.params.wellFormed = true) (hm : MemoryInv s)
    (hc : fits s.params.chunkCap s.dataLen.toNat = true) (ho : fits s.params.outCap s.outLen.toNat = true)
    (hk : kernelOk s.dataLen.toNat s.outLen.toNat = true) (h0 : s.dataLen.toNat / 3 ≠ 0) :
    State.Inv { accept s with seq := .run (unpackRecord s) } := by
  obtain ⟨hthree, hlen⟩ := kernelOk_iff.1 hk
  have htriplets : 3 * (s.dataLen.toNat / 3) = s.dataLen.toNat := by omega
  have hwidth := s.dataLen.isLt
  have hlatch : LatchInv { accept s with seq := .run (unpackRecord s) } (unpackRecord s) := by
    refine ⟨Nat.pos_of_ne_zero h0, ?_, ?_, ?_, ho⟩
    · simp only [unpackRecord]; omega
    · simp only [unpackRecord]; omega
    · simpa only [unpackRecord, htriplets, accept_params] using hc
  have hrun : RunInv { accept s with seq := .run (unpackRecord s) } (unpackRecord s) :=
    ⟨hlatch, Nat.pos_of_ne_zero h0, Nat.zero_le _, htriplets.symm, rfl, mixtureInv_of_accepted hm rfl rfl,
      .inl ⟨rfl, rfl, rfl, rfl, rfl, rfl, rfl, rfl⟩⟩
  exact inv_of_run rfl hp (statusInv_accepted _) hm rfl hrun

/-- The cell of the next byte lies within CHUNK_CAP (R36). -/
theorem fits_nextByte {s : State} {r : Running} (hlatch : LatchInv s r) (hframe : FrameLatched s r)
    (hlj : r.lj < r.fbsL) : fits s.params.chunkCap (r.lj + 1) = true := by
  obtain ⟨-, -, -, hcap, -⟩ := hlatch
  obtain ⟨-, hfbs, -⟩ := hframe
  exact fits_mono (by omega) hcap

/-- The latched lengths fit DATA_LEN and OUT_LEN (R105). -/
theorem latchedLengths_toNat {s : State} {r : Running} (hlatch : LatchInv s r) (hframe : FrameLatched s r) :
    (BitVec.ofNat 65 r.fbsL).toNat = 3 * r.nL ∧ (BitVec.ofNat 65 r.mL).toNat = r.mL := by
  obtain ⟨-, hmL, hwidth, -, -⟩ := hlatch
  obtain ⟨-, hfbs, -⟩ := hframe
  simp only [BitVec.toNat_ofNat]
  omega

/-- A byte of the frame arrives and more are to come (R115). -/
theorem loadByte_inv {s : State} {r : Running} {b : Byte} (h : s.Inv) (hs : s.seq = .load r)
    (hb : Memory.read s.src (srcAddr r.seekL r.lj) = some b) (hne : r.lj + 1 ≠ r.fbsL) :
    State.Inv { s with chunk := s.chunk.write r.lj b, seq := .load { r with lj := r.lj + 1 } } := by
  obtain ⟨hp, hst, hm, hbusy, hlatch, hframe, hlj, hti, hlanes, hcopied, hmix, hd, ho⟩ := (inv_load_iff hs).1 h
  have hfit := fits_nextByte hlatch hframe hlj
  have hlj' : r.lj + 1 < r.fbsL := by omega
  exact inv_of_load rfl hp hst (memoryInv_writeChunk b hm hfit) hbusy
    ⟨hlatch, hframe, hlj', hti, hlanes, copied_succ hcopied hb, mixtureInv_of_ti_zero hmix hti hti rfl rfl, hd, ho⟩

/-- The last byte of the frame arrives and the kernel starts (R115). -/
theorem loadLastByte_inv {s : State} {r : Running} {b : Byte} (h : s.Inv) (hs : s.seq = .load r)
    (hb : Memory.read s.src (srcAddr r.seekL r.lj) = some b) (hlast : r.lj + 1 = r.fbsL) :
    State.Inv
      (setLengths r.fbsL r.mL
        { s with chunk := s.chunk.write r.lj b, seq := .run { r with lj := r.lj + 1, ti := 0 } }) := by
  obtain ⟨hp, hst, hm, hbusy, hlatch, hframe, hlj, hti, hlanes, hcopied, hmix, -, -⟩ := (inv_load_iff hs).1 h
  have hfit := fits_nextByte hlatch hframe hlj
  obtain ⟨hdata, hout⟩ := latchedLengths_toNat hlatch hframe
  have hcopied' := copied_succ hcopied hb
  rw [hlast] at hcopied'
  exact inv_of_run rfl hp hst (memoryInv_writeChunk b hm hfit) hbusy
    ⟨hlatch, hlatch.1, by simp [hlanes], hdata, hout, mixtureInv_of_ti_zero hmix hti rfl rfl rfl,
      .inr ⟨hframe, hlast, hcopied'⟩⟩

/-- The kernel's words of the triplets up to `n_l` lie within OUT_CAP. -/
theorem memoryInv_of_kernel {s : State} {r : Running} {g : Nat} {out : Memory 16} (hm : MemoryInv s)
    (hlatch : LatchInv s r) (hg : r.ti + g ≤ r.nL) (hu : unpackRange s.chunk g r.ti s.out = some out) :
    MemoryInv { s with out := out } := by
  obtain ⟨-, hmL, -, -, hcap⟩ := hlatch
  exact memoryInv_unpackRange hm (fits_mono (by omega) hcap) hu

/-- The kernel has taken its triplets and runs on (R89). -/
theorem iterated_inv {s : State} {r : Running} {g : Nat} {out : Memory 16} {lanes : List Lane} (h : s.Inv)
    (hs : s.seq = .run r) (hu : unpackRange s.chunk g r.ti s.out = some out) (hg : r.ti + g < r.nL)
    (hlanes : lanes.length ≤ s.params.lanes) : (iterated s r out (r.ti + g) lanes).Inv := by
  obtain ⟨hp, hst, hm, hbusy, hlatch, -, -, hdata, hout, hmix, hop⟩ := (inv_run_iff hs).1 h
  exact inv_of_run rfl hp hst (memoryInv_of_kernel hm hlatch hg.le hu) hbusy
    ⟨hlatch, hg, hlanes, hdata, hout, mixtureInv_iterated lanes hmix hu, hop⟩

/-! ### Commands -/

section Commands
variable {s t : State}

/-- A command performed whole keeps the invariant (R113). -/
theorem exec_inv {i : Instr} (h : s.Inv) (hb : s.status.busy = false) (hx : exec i s = .next t) : t.Inv := by
  have hseq := seq_idle_of_inv h hb
  obtain ⟨hp, -, hm, -⟩ := (inv_idle_iff hseq).1 h
  cases i with
  | nop => cases hx; exact h
  | addr =>
    obtain ⟨-, rfl⟩ | ⟨-, e, -, rfl⟩ | ⟨-, f, -, rfl⟩ := execAddr_next hx
    · exact h
    · exact raiseError_inv e hp hm
    · exact finish_inv hp (statusInv_accepted _) hm
  | unpack =>
    obtain ⟨-, rfl⟩ | ⟨-, -, rfl⟩ | ⟨-, -, hcap, hk, out, hu, rfl⟩ := execUnpack_next hx
    · exact h
    · exact raiseError_inv _ hp hm
    · obtain ⟨-, hlen⟩ := kernelOk_iff.1 hk
      exact finish_inv hp (statusInv_accepted _) (memoryInv_unpackRange hm (fits_mono (by omega) hcap) hu)
  | decode =>
    obtain ⟨-, rfl⟩ | ⟨-, e, -, rfl⟩ | ⟨-, f, chunk, out, hf, hc, ho, -, hl, hu, rfl⟩ |
      ⟨-, f, hf, hc, ho, h0, -, rfl⟩ := execDecode_next hx
    · exact h
    · exact raiseError_inv e hp hm
    · obtain ⟨-, -, -, heven, hthree, -⟩ := frameRange_bounds hf
      have hm' : MemoryInv { s with chunk := chunk } := memoryInv_loadRange hm hc hl
      have hm'' := memoryInv_unpackRange hm' (fits_mono (by omega) ho) hu
      exact finish_inv hp (statusInv_accepted _) hm''
    · exact enterLoad_inv hp hm hf hc ho h0
  | clear =>
    obtain ⟨-, rfl⟩ | ⟨-, rfl⟩ := execClear_next hx
    · exact h
    · exact inv_of_idle hseq hp (statusInv_forgotten _) hm hb
  | triplet even odd =>
    obtain ⟨r, hr, -⟩ | ⟨-, rfl⟩ := execTriplet_next hx
    · exact absurd hr (by simp [hseq])
    · exact h

/-- A command started keeps the invariant (R115). -/
theorem startCommand_inv {i : Instr} (h : s.Inv) (hb : s.status.busy = false) (hx : startCommand i s = .next t) :
    t.Inv := by
  obtain ⟨hp, -, hm, -⟩ := (inv_idle_iff (seq_idle_of_inv h hb)).1 h
  cases i with
  | nop => exact exec_inv (i := .nop) h hb hx
  | addr => exact exec_inv (i := .addr) h hb hx
  | clear => exact exec_inv (i := .clear) h hb hx
  | triplet even odd => exact exec_inv (i := .triplet even odd) h hb hx
  | unpack =>
    obtain ⟨-, rfl⟩ | ⟨-, -, rfl⟩ | ⟨-, -, -, rfl⟩ | ⟨-, hc, ho, hk, h0, rfl⟩ := startUnpack_next hx
    · exact h
    · exact raiseError_inv _ hp hm
    · exact finish_inv hp (statusInv_accepted _) hm
    · exact enterRun_inv hp hm hc ho hk h0
  | decode =>
    obtain ⟨-, rfl⟩ | ⟨-, e, -, rfl⟩ | ⟨-, f, -, -, rfl⟩ | ⟨-, f, hf, hc, ho, h0, rfl⟩ := startDecode_next hx
    · exact h
    · exact raiseError_inv e hp hm
    · exact finish_inv hp (statusInv_accepted _) hm
    · exact enterLoad_inv hp hm hf hc ho h0

/-- A byte presented by `WR CMD` keeps the invariant, command or not (R111, R119). -/
theorem presentByte_inv {c : Byte} (h : s.Inv) (hb : s.status.busy = false) (hx : presentByte c s = .next t) :
    t.Inv := by
  obtain rfl | ⟨i, -, -, ⟨-, hx⟩ | ⟨-, hx⟩⟩ := presentByte_next hx
  · obtain ⟨hp, -, hm, -⟩ := h
    exact raiseError_inv _ hp hm
  · exact exec_inv h hb hx
  · exact startCommand_inv h hb hx

/-! ### Moves and events -/

/-- One move of LOAD keeps the invariant (R115). -/
theorem advance_load_inv {r : Running} (h : s.Inv) (hs : s.seq = .load r) (hx : advance s = .next t) : t.Inv := by
  obtain ⟨-, rfl⟩ | ⟨-, b, hb, ⟨hlast, rfl⟩ | ⟨hne, rfl⟩⟩ := loadStep_next hs hx
  · exact h
  · exact loadLastByte_inv h hs hb hlast
  · exact loadByte_inv h hs hb hne

/-- Everything one kernel step can do when it answers a next state: end the command, or run on (R89). -/
theorem kernelStep_next {r : Running} (hs : s.seq = .run r) (hx : advance s = .next t) :
    ∃ g out, g = min s.params.lanes (r.nL - r.ti) ∧ unpackRange s.chunk g r.ti s.out = some out ∧
      ((r.ti + g = r.nL ∧ t = finish { s with out := out }) ∨
        (r.ti + g ≠ r.nL ∧ ∃ lanes, lanes.length = g ∧ t = iterated s r out (r.ti + g) lanes)) := by
  have hspec := kernelStep_spec hs rfl
  generalize hg : min s.params.lanes (r.nL - r.ti) = g at hspec
  split at hspec
  · rw [hspec] at hx; cases hx
  · next out hu =>
    obtain ⟨lanes, hlanes, hstep⟩ := hspec
    refine ⟨g, out, rfl, hu, ?_⟩
    rw [hstep] at hx
    split_ifs at hx with hend <;> cases hx
    · exact .inl ⟨hend, rfl⟩
    · exact .inr ⟨hend, lanes, hlanes, rfl⟩

/-- One kernel step keeps the invariant (R89). -/
theorem advance_run_inv {r : Running} (h : s.Inv) (hs : s.seq = .run r) (hx : advance s = .next t) : t.Inv := by
  obtain ⟨hp, hst, hm, -, hlatch, hti, -⟩ := (inv_run_iff hs).1 h
  obtain ⟨g, out, hg, hu, ⟨hend, rfl⟩ | ⟨hmore, lanes, hlanes, rfl⟩⟩ := kernelStep_next hs hx
  · exact finish_inv hp hst (memoryInv_of_kernel hm hlatch hend.le hu)
  · exact iterated_inv h hs hu (by omega) (by omega)

/-- One move of the sequencer keeps the invariant (R115). -/
theorem advance_inv (h : s.Inv) (hx : advance s = .next t) : t.Inv := by
  cases hs : s.seq with
  | idle => rw [advance_idle hs] at hx; cases hx; exact h
  | load r => exact advance_load_inv h hs hx
  | run r => exact advance_run_inv h hs hx

/-- A register write changes no memory, no flag and not the sequencer. -/
theorem writeReg_inv (v : BitVec 129) (g : Reg) (h : s.Inv) (hb : s.status.busy = false) : (writeReg s v g).Inv := by
  have hseq := seq_idle_of_inv h hb
  obtain ⟨hp, hst, hm, -⟩ := (inv_idle_iff hseq).1 h
  cases g <;> exact inv_of_idle hseq hp hst hm hb

/-- A host transaction keeps the invariant (R69 to R72). -/
theorem performTxn_inv {x : Txn} (h : s.Inv) (hx : performTxn x s = .next t) : t.Inv := by
  cases x with
  | writeReg r v =>
    obtain rfl | ⟨hb, g, -, rfl⟩ | ⟨hb, hx⟩ := hostWrite_next hx
    · exact h
    · exact writeReg_inv v g h hb
    · exact presentByte_inv h hb hx
  | readReg r =>
    rw [hostRead_next hx]
    exact (inv_ports_iff s _ _ _ _ _).2 h
  | chunkWrite j b =>
    obtain rfl | ⟨hb, hf, rfl⟩ := chunkWrite_next hx
    · exact h
    · have hseq := seq_idle_of_inv h hb
      obtain ⟨hp, hst, hm, -⟩ := (inv_idle_iff hseq).1 h
      exact inv_of_idle hseq hp hst (memoryInv_writeChunk b hm hf) hb
  | outRead k =>
    rw [outRead_next hx]
    exact (inv_ports_iff s _ _ _ _ _).2 h

/-- The source presented keeps the invariant: while a command runs it is the one already there (R58). -/
theorem setSource_inv {len : BitVec 64} {cells : List (Nat × Byte)} (h : s.Inv)
    (hx : setSource len cells s = .next t) : t.Inv := by
  obtain ⟨rfl, hsame⟩ := setSource_next hx
  cases hb : s.status.busy with
  | true =>
    obtain ⟨hlen, hsrc⟩ := hsame hb
    simp only at hlen hsrc
    rw [hlen] at hsrc ⊢
    rw [hsrc]
    exact h
  | false =>
    have hseq := seq_idle_of_inv h hb
    obtain ⟨hp, hst, hm, -⟩ := (inv_idle_iff hseq).1 h
    exact inv_of_idle hseq hp hst (memoryInv_setSource len cells hm) hb

/-- The reset event leaves a legal state (R139, R140). -/
theorem applyReset_inv (h : s.Inv) : (applyReset s).Inv := by
  obtain ⟨hp, -, hm, -⟩ := h
  exact inv_of_idle rfl hp statusInv_reset (memoryInv_applyReset hm) rfl

/-- Every entry of the agenda keeps the invariant. -/
theorem performEvent_inv {e : Event} (h : s.Inv) (hx : performEvent e s = .next t) : t.Inv := by
  cases e with
  | host x => exact performTxn_inv h hx
  | tick => exact advance_inv h hx
  | setSource len cells => exact setSource_inv h hx
  | sourceAnswers b => cases hx; exact (inv_ports_iff s _ _ _ _ _).2 h
  | reset => cases hx; exact applyReset_inv h

end Commands

/-- A step is the agenda's first entry, or one move of the sequencer (R73, R115). -/
theorem step_next {s t : State} (h : step s = .next t) :
    (s.agenda = [] ∧ advance s = .next t) ∨
      ∃ e rest, s.agenda = e :: rest ∧ performEvent e { s with agenda := rest } = .next t := by
  simp only [step] at h
  split at h
  · next ha => exact .inl ⟨ha, h⟩
  · next e rest ha => exact .inr ⟨e, rest, ha, h⟩

/-- Settles O60: by the two kinds of step and the event; each command, move and transaction keeps the invariant. -/
theorem stepKeepsTheInvariant : Obligations.StepKeepsTheInvariant := by
  intro s t h hx
  obtain ⟨-, hx⟩ | ⟨e, rest, -, hx⟩ := step_next hx
  · exact advance_inv h hx
  · exact performEvent_inv ((inv_ports_iff s _ _ _ rest _).2 h) hx

/-- Settles O59. -/
theorem resetSatisfiesTheInvariant : Obligations.ResetSatisfiesTheInvariant :=
  inv_of_idle rfl rfl statusInv_reset
    ⟨rfl, rfl, rfl, fun _ _ h => (by cases h), fun _ _ h => (by cases h), fun _ _ h => (by cases h)⟩ rfl

/-! ## What the invariant bounds -/

theorem statusByte_mem_of_statusInv {st : Status} (h : StatusInv st) :
    statusByte st ∈ [(0x00 : Byte), 0x01, 0x02, 0x16, 0x26, 0x36, 0x46] := by
  obtain ⟨busy, done, err, code⟩ := st
  obtain ⟨herr, hdone, hbusy, hcode⟩ := h
  cases busy with
  | true =>
    obtain ⟨rfl, rfl, rfl⟩ := hbusy rfl
    decide
  | false =>
    cases err with
    | true =>
      obtain rfl : done = true := hdone rfl
      have reports : ∀ c : BitVec 4, c ≠ 0 → c.toNat ≤ 4 →
          statusByte ⟨false, true, true, c⟩ ∈ [(0x00 : Byte), 0x01, 0x02, 0x16, 0x26, 0x36, 0x46] := by decide
      exact reports code (herr.1 rfl) hcode
    | false =>
      obtain rfl : code = 0 := by simpa using herr
      cases done <;> decide

/-- Settles O57: the STATUS part of the invariant leaves idle, running, done and the four reports. -/
theorem statusTakesSevenValues : Obligations.StatusTakesSevenValues := by
  intro s h
  obtain ⟨-, hst, -, -⟩ := h
  exact statusByte_mem_of_statusInv hst

/-- The latches of a DECODE fit because its frame lies inside a source of at most 2^64 - 1 bytes (R97). -/
theorem frameLatched_bounds {s : State} {r : Running} (h : FrameLatched s r) :
    r.fbsL < 2 ^ 65 ∧ r.seekL < 2 ^ 129 := by
  obtain ⟨-, -, -, -, hrange, -, -⟩ := h
  have hlen := s.srcLen.isLt
  exact ⟨by omega, by omega⟩

theorem latchInv_bounds {s : State} {r : Running} (h : LatchInv s r) : r.nL < 2 ^ 64 ∧ r.mL < 2 ^ 65 := by
  obtain ⟨-, hmL, hwidth, -, -⟩ := h
  exact ⟨by omega, by omega⟩

theorem runningFits_of_loadInv {s : State} {r : Running} (h : LoadInv s r) : RunningFits r := by
  obtain ⟨hlatch, hframe, hlj, hti, -⟩ := h
  obtain ⟨hfbs, hseek⟩ := frameLatched_bounds hframe
  obtain ⟨hnL, hmL⟩ := latchInv_bounds hlatch
  exact ⟨hfbs, hseek, hnL, hmL, hlj.trans hfbs, by omega⟩

theorem runningFits_of_runInv {s : State} {r : Running} (h : RunInv s r) : RunningFits r := by
  obtain ⟨hlatch, hti, -, -, -, -, hop⟩ := h
  obtain ⟨hnL, hmL⟩ := latchInv_bounds hlatch
  have hload : r.fbsL < 2 ^ 65 ∧ r.seekL < 2 ^ 129 ∧ r.lj < 2 ^ 65 := by
    obtain ⟨-, hfbs, hseek, hlj, -⟩ | ⟨hframe, hlj, -⟩ := hop
    · omega
    · obtain ⟨hfbs, hseek⟩ := frameLatched_bounds hframe
      exact ⟨hfbs, hseek, hlj ▸ hfbs⟩
  obtain ⟨hfbs, hseek, hlj⟩ := hload
  exact ⟨hfbs, hseek, hnL, hmL, hlj, hti.trans hnL⟩

/-- Settles O58, by the phase of the running command. -/
theorem hiddenStateFitsItsWidths : Obligations.HiddenStateFitsItsWidths := by
  intro s r h hr
  cases hs : s.seq with
  | idle => simp [runningOf, hs] at hr
  | load q =>
    obtain ⟨-, -, -, -, hload⟩ := (inv_load_iff hs).1 h
    obtain rfl : q = r := by simpa [runningOf, hs] using hr
    exact runningFits_of_loadInv hload
  | run q =>
    obtain ⟨-, -, -, -, hrun⟩ := (inv_run_iff hs).1 h
    obtain rfl : q = r := by simpa [runningOf, hs] using hr
    exact runningFits_of_runInv hrun

/-! ## What a command leaves unchanged -/

/-- `t` differs from `s` at most in what commands compute: the lengths, STATUS, FRAME_BYTE_SIZE, SEEK_OFFSET, CHUNK, OUT and
the sequencer's hidden state. -/
def ComputedFrom (s t : State) : Prop :=
  t = { s with
        dataLen := t.dataLen
        outLen := t.outLen
        status := t.status
        frameByteSize := t.frameByteSize
        seekOffset := t.seekOffset
        chunk := t.chunk
        out := t.out
        seq := t.seq }

section ComputedFrom
variable {s t : State}

theorem exec_computedFrom {i : Instr} (h : exec i s = .next t) : ComputedFrom s t := by
  cases i with
  | nop => cases h; rfl
  | addr => obtain ⟨-, rfl⟩ | ⟨-, e, -, rfl⟩ | ⟨-, f, -, rfl⟩ := execAddr_next h <;> rfl
  | unpack => obtain ⟨-, rfl⟩ | ⟨-, -, rfl⟩ | ⟨-, -, -, -, out, -, rfl⟩ := execUnpack_next h <;> rfl
  | decode =>
    obtain ⟨-, rfl⟩ | ⟨-, e, -, rfl⟩ | ⟨-, f, chunk, out, -, -, -, -, -, -, rfl⟩ | ⟨-, f, -, -, -, -, -, rfl⟩ :=
      execDecode_next h <;> rfl
  | clear => obtain ⟨-, rfl⟩ | ⟨-, rfl⟩ := execClear_next h <;> rfl
  | triplet even odd => obtain ⟨r, -, rfl⟩ | ⟨-, rfl⟩ := execTriplet_next h <;> rfl

theorem startCommand_computedFrom {i : Instr} (h : startCommand i s = .next t) : ComputedFrom s t := by
  cases i with
  | nop => exact exec_computedFrom (i := .nop) h
  | addr => exact exec_computedFrom (i := .addr) h
  | clear => exact exec_computedFrom (i := .clear) h
  | triplet even odd => exact exec_computedFrom (i := .triplet even odd) h
  | unpack =>
    obtain ⟨-, rfl⟩ | ⟨-, -, rfl⟩ | ⟨-, -, -, rfl⟩ | ⟨-, -, -, -, -, rfl⟩ := startUnpack_next h <;> rfl
  | decode =>
    obtain ⟨-, rfl⟩ | ⟨-, e, -, rfl⟩ | ⟨-, f, -, -, rfl⟩ | ⟨-, f, -, -, -, -, rfl⟩ := startDecode_next h <;> rfl

theorem presentByte_computedFrom {c : Byte} (h : presentByte c s = .next t) : ComputedFrom s t := by
  obtain rfl | ⟨i, -, -, ⟨-, h⟩ | ⟨-, h⟩⟩ := presentByte_next h
  · rfl
  · exact exec_computedFrom h
  · exact startCommand_computedFrom h

theorem advance_computedFrom (h : advance s = .next t) : ComputedFrom s t := by
  cases hs : s.seq with
  | idle => rw [advance_idle hs] at h; cases h; rfl
  | load r => obtain ⟨-, rfl⟩ | ⟨-, b, -, ⟨-, rfl⟩ | ⟨-, rfl⟩⟩ := loadStep_next hs h <;> rfl
  | run r => obtain ⟨g, out, -, -, ⟨-, rfl⟩ | ⟨-, lanes, -, rfl⟩⟩ := kernelStep_next hs h <;> rfl

end ComputedFrom

/-- Settles O36: field by field from what a command can change. -/
theorem noCommandWritesTheGeometryOrTheSource : Obligations.NoCommandWritesTheGeometryOrTheSource := by
  intro i s t h
  have hc : t = _ := exec_computedFrom h
  and_intros <;> rw [hc]

/-- The source and the parameters are those of `s`. -/
def SourceKept (s t : State) : Prop := t.src = s.src ∧ t.srcLen = s.srcLen ∧ t.params = s.params

theorem SourceKept.refl (s : State) : SourceKept s s := ⟨rfl, rfl, rfl⟩

theorem ComputedFrom.sourceKept {s t : State} (h : ComputedFrom s t) : SourceKept s t :=
  ⟨(congrArg State.src h :), (congrArg State.srcLen h :), (congrArg State.params h :)⟩

theorem writeReg_sourceKept (s : State) (v : BitVec 129) (g : Reg) : SourceKept s (writeReg s v g) := by
  cases g <;> exact .refl _

theorem performTxn_sourceKept {s t : State} {x : Txn} (h : performTxn x s = .next t) : SourceKept s t := by
  cases x with
  | writeReg r v =>
    obtain rfl | ⟨-, g, -, rfl⟩ | ⟨-, h⟩ := hostWrite_next h
    · exact .refl _
    · exact writeReg_sourceKept s v g
    · exact (presentByte_computedFrom h).sourceKept
  | readReg r => rw [hostRead_next h]; exact .refl _
  | chunkWrite j b => obtain rfl | ⟨-, -, rfl⟩ := chunkWrite_next h <;> exact .refl _
  | outRead k => rw [outRead_next h]; exact .refl _

/-- Only the environment's presentation of a source changes the source (R33, R58). -/
theorem performEvent_sourceKept {s t : State} {e : Event} (h : performEvent e s = .next t)
    (he : ∀ len cells, e ≠ .setSource len cells) : SourceKept s t := by
  cases e with
  | host x => exact performTxn_sourceKept h
  | tick => exact (advance_computedFrom h).sourceKept
  | setSource len cells => exact absurd rfl (he len cells)
  | sourceAnswers b => cases h; exact .refl _
  | reset => cases h; exact .refl _

/-- Settles O53: neither a move of the sequencer nor any event but `setSource` writes the source. -/
theorem stepNeverWritesTheSource : Obligations.StepNeverWritesTheSource := by
  intro s t h hhead
  obtain ⟨-, h⟩ | ⟨e, rest, ha, h⟩ := step_next h
  · exact (advance_computedFrom h).sourceKept
  · exact performEvent_sourceKept (s := { s with agenda := rest }) h fun len cells he =>
      hhead len cells (by rw [ha, he]; rfl)

/-! ## FRAME_COUNT -/

section FrameCount
variable (s : State) (c : BitVec 32)

/-- The adder does not read FRAME_COUNT (R91). -/
theorem frameRange_withFrameCount : frameRange { s with frameCount := c } = frameRange s :=
  frameRange_congr rfl rfl rfl rfl rfl

theorem execAddr_withFrameCount :
    execAddr { s with frameCount := c } = mapNext (fun t => { t with frameCount := c }) (execAddr s) := by
  simp only [execAddr, frameRange_withFrameCount]
  split_ifs
  · rfl
  · cases frameRange s <;> rfl

theorem execUnpack_withFrameCount :
    execUnpack { s with frameCount := c } = mapNext (fun t => { t with frameCount := c }) (execUnpack s) := by
  simp only [execUnpack]
  split_ifs
  case neg => cases unpackRange s.chunk (s.dataLen.toNat / 3) 0 s.out <;> rfl
  all_goals rfl

theorem execDecode_withFrameCount :
    execDecode { s with frameCount := c } = mapNext (fun t => { t with frameCount := c }) (execDecode s) := by
  simp only [execDecode, frameRange_withFrameCount]
  split_ifs
  · rfl
  · cases frameRange s with
    | error e => rfl
    | ok f =>
      simp only
      split_ifs
      case neg =>
        cases loadRange s.src f.offset f.bytes 0 s.chunk with
        | none => rfl
        | some chunk => simp only; cases unpackRange chunk (f.bytes / 3) 0 s.out <;> rfl
      all_goals rfl

theorem execClear_withFrameCount :
    execClear { s with frameCount := c } = mapNext (fun t => { t with frameCount := c }) (execClear s) := by
  simp only [execClear]
  split_ifs <;> rfl

theorem execTriplet_withFrameCount (even odd : Sample) :
    execTriplet even odd { s with frameCount := c } =
      mapNext (fun t => { t with frameCount := c }) (execTriplet even odd s) := by
  simp only [execTriplet]
  split <;> rfl

end FrameCount

/-- Settles O37, instruction by instruction. -/
theorem noCommandReadsFrameCount : Obligations.NoCommandReadsFrameCount := by
  intro i s c
  cases i with
  | nop => rfl
  | addr => exact execAddr_withFrameCount s c
  | unpack => exact execUnpack_withFrameCount s c
  | decode => exact execDecode_withFrameCount s c
  | clear => exact execClear_withFrameCount s c
  | triplet even odd => exact execTriplet_withFrameCount s c even odd

/-! ## Register numbers -/

/-- The numbers 0x8 to 0xB name the read-only registers, those from 0xC on none (R14, R29). -/
theorem regOfNumber_of_ge_eight :
    ∀ r : BitVec 4, 0x8 ≤ r.toNat →
      regOfNumber r ∈ [none, some .status, some .frameByteSize, some .seekOffset, some .srcLen] := by decide

theorem regOfNumber_reserved : ∀ r : BitVec 4, 0xC ≤ r.toNat → regOfNumber r = none := by decide

theorem hostWrite_of_ge_eight {r : BitVec 4} (v : BitVec 129) (s : State) (hr : 0x8 ≤ r.toNat) :
    hostWrite r v s = .next s := by
  have hreg := regOfNumber_of_ge_eight r hr
  simp only [List.mem_cons, List.not_mem_nil, or_false] at hreg
  simp only [hostWrite]
  split_ifs
  · rfl
  · obtain h | h | h | h | h := hreg <;> rw [h] <;> rfl

/-- Settles O40: no number from 0x8 on names a register a write changes. -/
theorem readOnlyAndReservedWritesAreIgnored : Obligations.ReadOnlyAndReservedWritesAreIgnored := by
  intro s r v
  refine ⟨hostWrite_of_ge_eight v s, fun hr => ?_⟩
  change hostRead r s = _
  simp only [hostRead, regOfNumber_reserved r hr]

/-! ## UNPACK and DECODE on their buffers -/

/-- Settles O20: the kernel finds all its triplets only when all its cells are defined. -/
theorem unpackRefusesUndefinedCells : Obligations.UnpackRefusesUndefinedCells := by
  rintro s l j rfl hb hc ho hthree hlen hj hread
  have hk : kernelOk s.dataLen.toNat s.outLen.toNat = true := kernelOk_iff.2 ⟨hthree, hlen⟩
  have hu : unpackRange s.chunk (s.dataLen.toNat / 3) 0 s.out = none := by
    by_contra hne
    rw [← ne_eq, unpackRange_ne_none, tripletsDefined_iff] at hne
    exact hne j (by omega) (by omega) hread
  change execUnpack s = _
  simp [execUnpack, hb, hc, ho, hk, hu]

/-- Settles O21: the two capacity tests, in their order, of UNPACK at acceptance and of DECODE after its checks. -/
theorem buffersBeyondCapacityAreRefused : Obligations.BuffersBeyondCapacityAreRefused := by
  intro s f hb
  have hunpack : exec .unpack s = execUnpack s := rfl
  have hdecode : exec .decode s = execDecode s := rfl
  rw [hunpack, hdecode]
  refine ⟨fun hc => ?_, fun hc ho => ?_, fun hf hc => ?_, fun hf hc ho => ?_⟩
  · simp [execUnpack, hb, hc]
  · simp [execUnpack, hb, hc, ho]
  · simp [execDecode, hb, hf, hc]
  · simp [execDecode, hb, hf, hc, ho]

/-- A DECODE that starts while idle and reports success has loaded and unpacked its frame. -/
theorem execDecode_done {s t : State} (hb : s.status.busy = false) (hx : exec .decode s = .next t)
    (hst : statusByte t.status = 0x02) :
    ∃ f chunk out, frameRange s = .ok f ∧ loadRange s.src f.offset f.bytes 0 s.chunk = some chunk ∧
      unpackRange chunk (f.bytes / 3) 0 s.out = some out ∧ t = decoded s f chunk out := by
  obtain ⟨hb', -⟩ | ⟨-, e, -, rfl⟩ | ⟨-, f, chunk, out, hf, -, -, -, hl, hu, rfl⟩ | ⟨-, f, -, -, -, -, -, rfl⟩ :=
    execDecode_next hx
  · exact absurd hb' (by simp [hb])
  · rw [raiseError_status, statusByte_error] at hst
    cases e <;> exact absurd hst (by decide)
  · exact ⟨f, chunk, out, hf, hl, hu, rfl⟩
  · exact absurd hst (by simp [statusByte])

/-- A word of OUT after the load of `n` bytes and the kernel, from the bytes of the source (R65, R83, R104). -/
theorem read_out_of_load_unpack {src chunk chunk' : Memory 8} {out out' : Memory 16} {offset n k : Nat}
    (hl : loadRange src offset n 0 chunk = some chunk') (hu : unpackRange chunk' (n / 3) 0 out = some out')
    (hk : k < 2 * (n / 3)) :
    ∃ b0 b1 b2 : Byte, Memory.read src (offset + 3 * (k / 2)) = some b0 ∧
      Memory.read src (offset + 3 * (k / 2) + 1) = some b1 ∧ Memory.read src (offset + 3 * (k / 2) + 2) = some b2 ∧
      Memory.read out' k = some (if k % 2 = 0 then sampleEven b0 b1 else sampleOdd b1 b2) := by
  obtain ⟨hload, -, -⟩ := loadRange_spec hl
  obtain ⟨hout, hdef, -⟩ := unpackRange_spec hu
  obtain ⟨⟨b0, b1, b2⟩, ht⟩ := Option.ne_none_iff_exists'.1 (hdef (k / 2) (by omega) (by omega))
  obtain ⟨h0, h1, h2⟩ := tripletAt_eq_some.1 ht
  rw [hload, if_pos (by omega)] at h0 h1 h2
  refine ⟨b0, b1, b2, h0, h1, h2, ?_⟩
  rw [hout, if_pos (by omega)]
  simp only [sampleOf, ht]
  split_ifs <;> rfl

/-- The row-major index of a pixel lies inside the frame (R38). -/
theorem rowMajor_lt {r c rows columns : Nat} (hr : r < rows) (hc : c < columns) :
    r * columns + c < rows * columns :=
  calc r * columns + c < r * columns + columns := by omega
    _ = (r + 1) * columns := (Nat.succ_mul r columns).symm
    _ ≤ rows * columns := Nat.mul_le_mul_right columns hr

/-- Settles O28: the pixel is the word at its row-major index, which the kernel wrote from the frame's triplet. -/
theorem rowMajorViewOfADecodedFrame : Obligations.RowMajorViewOfADecodedFrame := by
  rintro s t n f o r c rfl rfl rfl hb hx hst hr hc
  obtain ⟨fr, chunk, out, hf, hl, hu, rfl⟩ := execDecode_done hb hx hst
  obtain ⟨-, heven, -, rfl⟩ := frameRange_eq_ok.1 hf
  have hpixel : r * s.columns.toNat + c < pixelCount s := rowMajor_lt hr hc
  have htriplets : frameBytes (pixelCount s) / 3 = pixelCount s / 2 := frameBytes_div_three heven
  exact read_out_of_load_unpack hl hu (by simp only [htriplets]; omega)

/-! ## Reset -/

/-- Settles O47. -/
theorem resetClearsEveryRegister : Obligations.ResetClearsEveryRegister := by
  refine ⟨rfl, fun g hg => ?_, by decide, rfl, Memory.read_nil, Memory.read_nil⟩
  cases g with
  | srcLen => exact absurd rfl hg
  | _ => decide

end Sys2Proof.Machine

namespace Sys2Proof.Machine

/-! ## The memories between the block and its environment -/

/-! ### Triplets at rest -/

/-- Outside RUN a triplet is data (R60; log 16). -/
theorem execTriplet_of_not_run {s : State} (e o : Sample) (h : ∀ r, s.seq ≠ .run r) :
    exec (.triplet e o) s = .next s := by
  change execTriplet e o s = _
  cases hs : s.seq with
  | idle => simp only [execTriplet, hs]
  | load r => simp only [execTriplet, hs]
  | run r => exact absurd hs (h r)

/-- Settles O25. -/
theorem tripletAtRestHasNoEffect : Obligations.TripletAtRestHasNoEffect :=
  fun _ e o h => execTriplet_of_not_run e o h

/-! ### The source -/

/-- A byte the source lacks stops the whole load (R49). -/
theorem loadRange_eq_none {src chunk : Memory 8} {offset n j : Nat} (hj : j < n)
    (h : Memory.read src (srcAddr offset j) = none) : loadRange src offset n 0 chunk = none := by
  by_contra hne
  exact loadRange_ne_none.1 hne j (Nat.zero_le j) (by omega) h

/-- Settles O33: past its checks DECODE begins with the load, and the load finds the byte missing. -/
theorem decodeRefusesASourceThatContradictsItsLength : Obligations.DecodeRefusesASourceThatContradictsItsLength := by
  intro s f j hb hf hc ho hack hj hread
  rw [execDecode_of_ok hb hf hc ho fun _ => hack, loadRange_eq_none hj hread]

section SetSource
variable {s : State} {len : BitVec 64} {cells : List (Nat × Byte)}

theorem setSource_of_idle (hb : s.status.busy = false) :
    setSource len cells s = .next { s with srcLen := len, src := Memory.ofCells len.toNat cells } := by
  simp [setSource, hb]

theorem setSource_of_changed (hb : s.status.busy = true)
    (h : ¬(len = s.srcLen ∧ Memory.ofCells len.toNat cells = s.src)) :
    setSource len cells s = .refused .sourceChangedWhileBusy := by
  rw [setSource, if_pos ⟨hb, h⟩]

theorem setSource_of_same (hlen : len = s.srcLen) (hsrc : Memory.ofCells len.toNat cells = s.src) :
    setSource len cells s = .next s := by
  subst hlen
  rw [setSource, if_neg fun h => h.2 ⟨rfl, hsrc⟩, hsrc]

end SetSource

/-- Settles O46: a source with another byte is another source, and one presented while idle holds exactly the cells given
below its length. -/
theorem theSourceChangesOnlyBetweenCommands : Obligations.TheSourceChangesOnlyBetweenCommands := by
  intro s len cells
  have hperform : performEvent (.setSource len cells) s = setSource len cells s := rfl
  rw [hperform]
  refine ⟨fun hb => ⟨_, setSource_of_idle hb, rfl, ?_, ?_, rfl⟩, setSource_of_changed, ?_, setSource_of_same⟩
  · exact fun _ _ => Memory.of_read_ofCells
  · exact fun _ _ => Memory.read_ofCells_ne_none
  · rintro hb ⟨a, ha⟩
    exact setSource_of_changed hb fun ⟨_, hsrc⟩ => ha (by rw [hsrc])

/-! ### Reads of OUT -/

/-- `w` is the sample at OUT[k] of the triplet that `bytes` holds there (R76, R87). -/
def IsSample (bytes : Nat → Option Byte) (k : Nat) (w : Word) : Prop :=
  ∃ b0 b1 b2, bytes (3 * (k / 2)) = some b0 ∧ bytes (3 * (k / 2) + 1) = some b1 ∧ bytes (3 * (k / 2) + 2) = some b2 ∧
    w = if k % 2 = 0 then sampleEven b0 b1 else sampleOdd b1 b2

theorem isSample_of_sampleOf {chunk : Memory 8} {k : Nat} {w : Word} (h : sampleOf chunk k = some w) :
    IsSample (Memory.read chunk) k w := by
  simp only [sampleOf] at h
  split at h
  · cases h
  · rename_i b0 b1 b2 ht
    obtain ⟨h0, h1, h2⟩ := tripletAt_eq_some.1 ht
    exact ⟨b0, b1, b2, h0, h1, h2, by split_ifs at h ⊢ <;> exact (Option.some.inj h).symm⟩

theorem isSample_of_sourceSample {src : Memory 8} {offset k : Nat} {w : Word}
    (h : sourceSample src offset k = some w) : IsSample (fun i => Memory.read src (offset + i)) k w := by
  simp only [sourceSample] at h
  split at h
  · rename_i b0 b1 b2 h0 h1 h2
    exact ⟨b0, b1, b2, h0, h1, h2, by split_ifs at h ⊢ <;> exact (Option.some.inj h).symm⟩
  · cases h

/-- The running command is `r` and `bytes` the packed data it unpacks: CHUNK in RUN, the source's frame in LOAD (R104). -/
def Unpacks (s : State) (r : Running) (bytes : Nat → Option Byte) : Prop :=
  (s.seq = .run r ∧ ∀ i, bytes i = Memory.read s.chunk i) ∨
    (s.seq = .load r ∧ ∀ i, bytes i = Memory.read s.src (r.seekL + i))

section WordsWhileBusy
variable {s : State} {r : Running} {bytes : Nat → Option Byte} {k : Nat}

theorem runningOf_of_unpacks (h : Unpacks s r bytes) : runningOf s = some r := by
  obtain ⟨hs, -⟩ | ⟨hs, -⟩ := h <;> simp only [runningOf, hs]

theorem wordBefore_of_lt (h : Unpacks s r bytes) (hk : k < r.mL) : wordBefore s k = Memory.read r.before.out k := by
  simp only [wordBefore, runningOf_of_unpacks h, if_pos hk]

theorem wordBefore_of_ge (h : Unpacks s r bytes) (hk : r.mL ≤ k) : wordBefore s k = Memory.read s.out k := by
  simp only [wordBefore, runningOf_of_unpacks h, if_neg hk.not_gt]

theorem wordAfter_of_ge (h : Unpacks s r bytes) (hk : r.mL ≤ k) : wordAfter s k = Memory.read s.out k := by
  obtain ⟨hs, -⟩ | ⟨hs, -⟩ := h <;> simp only [wordAfter, hs, if_neg hk.not_gt]

/-- The new word is the sample of the packed data (R76, R107). -/
theorem isSample_of_wordAfter {w : Word} (h : Unpacks s r bytes) (hk : k < r.mL) (hw : wordAfter s k = some w) :
    IsSample bytes k w := by
  obtain ⟨hs, hbytes⟩ | ⟨hs, hbytes⟩ := h
  · simp only [wordAfter, hs, if_pos hk] at hw
    exact funext hbytes ▸ isSample_of_sampleOf hw
  · simp only [wordAfter, hs, if_pos hk] at hw
    exact funext hbytes ▸ isSample_of_sourceSample hw

/-- A word the command does not write is found as it is. -/
theorem wordWhileBusy_of_ge (h : Unpacks s r bytes) (hk : r.mL ≤ k) : wordWhileBusy s k = Memory.read s.out k := by
  simp only [wordWhileBusy, wordBefore_of_ge h hk, wordAfter_of_ge h hk, Option.or_self, ite_self]

/-- A word the command writes is found old or new (R48, R143). -/
theorem wordWhileBusy_of_lt {w : Word} (h : Unpacks s r bytes) (hk : k < r.mL) (hw : wordWhileBusy s k = some w) :
    Memory.read r.before.out k = some w ∨ IsSample bytes k w := by
  obtain hold | hnew := wordWhileBusy_cases hw
  · exact .inl (wordBefore_of_lt h hk ▸ hold)
  · exact .inr (isSample_of_wordAfter h hk hnew)

/-- A word the command writes is missing only where there was no old one (log 25). -/
theorem before_eq_none_of_wordWhileBusy (h : Unpacks s r bytes) (hk : k < r.mL) (hw : wordWhileBusy s k = none) :
    Memory.read r.before.out k = none := by
  by_contra hne
  exact wordWhileBusy_ne_none (wordBefore_of_lt h hk ▸ hne) hw

end WordsWhileBusy

section OutRead
variable {s : State} {k : BitVec 65}

theorem outRead_beyond (hf : fits s.params.outCap (k.toNat + 1) = false) :
    outRead k s = .refused .outCapacityExceeded := by
  simp [outRead, hf]

variable (hf : fits s.params.outCap (k.toNat + 1) = true)
include hf

theorem outRead_idle_some {w : Word} (hb : s.status.busy = false) (h : Memory.read s.out k.toNat = some w) :
    outRead k s = .next { s with orData := w } := by
  simp [outRead, hf, hb, h]

theorem outRead_idle_none (hb : s.status.busy = false) (h : Memory.read s.out k.toNat = none) :
    outRead k s = .refused .undefinedOutCell := by
  simp [outRead, hf, hb, h]

theorem outRead_busy_some {w : Word} (hb : s.status.busy = true) (h : wordWhileBusy s k.toNat = some w) :
    outRead k s = .next { s with orData := w, freeCount := s.freeCount + 1 } := by
  simp [outRead, hf, hb, h]

theorem outRead_busy_none (hb : s.status.busy = true) (h : wordWhileBusy s k.toNat = none) :
    outRead k s = .refused .undefinedOutCell := by
  simp [outRead, hf, hb, h]

end OutRead

/-- Settles O45: by BUSY, and while busy by whether the command writes the word. -/
theorem outReadReturnsTheWord : Obligations.OutReadReturnsTheWord := by
  intro s k
  have hperform : performTxn (.outRead k) s = outRead k s := rfl
  rw [hperform]
  refine ⟨outRead_beyond, fun hf => ⟨fun hb => ⟨fun w => outRead_idle_some hf hb, outRead_idle_none hf hb⟩, ?_⟩⟩
  intro q bytes hb hq
  have hu : Unpacks s q bytes := hq
  refine ⟨fun hk => ?_, fun hk => ?_⟩
  · rw [← wordWhileBusy_of_ge hu hk]
    exact ⟨fun w hw => ⟨_, outRead_busy_some hf hb hw, rfl, rfl⟩, outRead_busy_none hf hb⟩
  · cases hw : wordWhileBusy s k.toNat with
    | some w => exact .inl ⟨_, outRead_busy_some hf hb hw, rfl, wordWhileBusy_of_lt hu hk hw⟩
    | none => exact .inr ⟨before_eq_none_of_wordWhileBusy hu hk hw, outRead_busy_none hf hb hw⟩

end Sys2Proof.Machine

namespace Sys2Proof

/-! ## The decoder and the encoder -/

/-! ### The fields of a triplet -/

theorem evenField_of_tripletBytes (even odd : Sample) :
    evenField (tripletByte0 even) (tripletByte1 even odd) = even := by
  rw [evenField, tripletByte0, tripletByte1, BitVec.extractLsb'_append_eq_left]
  exact BitVec.extractLsb'_append_extractLsb'

theorem oddField_of_tripletBytes (even odd : Sample) :
    oddField (tripletByte1 even odd) (tripletByte2 odd) = odd := by
  rw [oddField, tripletByte1, tripletByte2, BitVec.extractLsb'_append_eq_right]
  exact BitVec.extractLsb'_append_extractLsb'

theorem tripletByte0_of_fields (b0 b1 : Byte) : tripletByte0 (evenField b0 b1) = b0 := by
  rw [tripletByte0, evenField, BitVec.extractLsb'_append_eq_left]

theorem tripletByte1_of_fields (b0 b1 b2 : Byte) : tripletByte1 (evenField b0 b1) (oddField b1 b2) = b1 := by
  rw [tripletByte1, evenField, oddField, BitVec.extractLsb'_append_eq_right, BitVec.extractLsb'_append_eq_left]
  exact BitVec.extractLsb'_append_extractLsb'

theorem tripletByte2_of_fields (b1 b2 : Byte) : tripletByte2 (oddField b1 b2) = b2 := by
  rw [tripletByte2, oddField, BitVec.extractLsb'_append_eq_right]

/-! ### The opcode map -/

/-- Each command byte is the encoding of its command (R67). -/
theorem encode_of_commandOfByte {b : Byte} {i : Instr} (h : commandOfByte b = some i) :
    encode i = [b] ∧ i.format = .cmd8 := by
  simp only [commandOfByte] at h
  split_ifs at h <;> cases h
  all_goals subst b; exact ⟨rfl, rfl⟩

/-- The bytes from 0x05 on name no command (R68). -/
theorem commandOfByte_eq_none_iff : ∀ b : Byte, commandOfByte b = none ↔ 0x05 ≤ b.toNat := by decide

/-! ### What decoding answers, by format -/

theorem decode_cmd8_eq_instr {bs rest : List Byte} {i : Instr} :
    decode .cmd8 bs = .instr i rest ↔ ∃ b, bs = b :: rest ∧ commandOfByte b = some i := by
  cases bs with
  | nil => simp [decode]
  | cons b bs =>
    cases hb : commandOfByte b with
    | none => simp [decode, hb]
    | some j => simp [decode, hb, and_comm]

theorem decode_cmd8_eq_reserved {b : Byte} {rest : List Byte} :
    decode .cmd8 (b :: rest) = .reject (.reservedCommand b) ↔ commandOfByte b = none := by
  cases hb : commandOfByte b with
  | none => simp [decode, hb]
  | some i => simp [decode, hb]

theorem decode_data24_eq_instr {bs rest : List Byte} {i : Instr} :
    decode .data24 bs = .instr i rest ↔
      ∃ b0 b1 b2, bs = b0 :: b1 :: b2 :: rest ∧ i = .triplet (evenField b0 b1) (oddField b1 b2) := by
  match bs with
  | [] => simp [decode]
  | [_] => simp [decode]
  | [_, _] => simp [decode]
  | b0 :: b1 :: b2 :: bs => simp [decode, eq_comm, and_comm]

/-! ### Both directions -/

/-- Settles O1: a command byte by the opcode map, a triplet by its two fields. -/
theorem decodeOfEncodeIsTheInstruction : Obligations.DecodeOfEncodeIsTheInstruction := by
  intro i rest _
  cases i with
  | triplet even odd =>
    exact decode_data24_eq_instr.2
      ⟨_, _, _, rfl, by rw [evenField_of_tripletBytes, oddField_of_tripletBytes]⟩
  | _ => exact decode_cmd8_eq_instr.2 ⟨_, rfl, rfl⟩

/-- Settles O2, by the format: the opcode map and the fields lose no bit of the bytes. -/
theorem decodedBytesAreTheEncoding : Obligations.DecodedBytesAreTheEncoding := by
  intro f bs rest i h
  cases f with
  | cmd8 =>
    obtain ⟨b, rfl, hb⟩ := decode_cmd8_eq_instr.1 h
    obtain ⟨henc, hformat⟩ := encode_of_commandOfByte hb
    exact ⟨by rw [henc]; rfl, hformat⟩
  | data24 =>
    obtain ⟨b0, b1, b2, rfl, rfl⟩ := decode_data24_eq_instr.1 h
    refine ⟨?_, rfl⟩
    rw [encode, tripletByte0_of_fields, tripletByte1_of_fields, tripletByte2_of_fields]
    rfl

/-- Settles O3. -/
theorem reservedCommandBytesAreRejected : Obligations.ReservedCommandBytesAreRejected :=
  fun b _ => decode_cmd8_eq_reserved.trans (commandOfByte_eq_none_iff b)

/-- Settles O4: each word evaluated. -/
theorem wordsOfTheTablesDecode : Obligations.WordsOfTheTablesDecode := by
  and_intros <;> decide

/-! ### Script lines -/

theorem decodeTxn_encodeTxn (t : Txn) : decodeTxn (encodeTxn t) = some t := by
  cases t <;>
    simp only [encodeTxn, decodeTxn, BitVec.isLt, and_self, if_true, BitVec.ofNat_toNat, BitVec.setWidth_eq]

/-- The ports' widths hold the numbers a line that decodes carries, so none is cut (R41). -/
theorem encodeTxn_of_decodeTxn {l : ScriptLine} {t : Txn} (h : decodeTxn l = some t) : encodeTxn t = l := by
  obtain ⟨kind, number, value⟩ := l
  cases kind with
  | W =>
    obtain ⟨⟨hn, hv⟩, ht⟩ := Option.ite_none_right_eq_some.1 h
    cases ht
    simp only [encodeTxn, BitVec.toNat_ofNat, Nat.mod_eq_of_lt hn, Nat.mod_eq_of_lt hv]
  | R =>
    obtain ⟨⟨hn, rfl⟩, ht⟩ := Option.ite_none_right_eq_some.1 h
    cases ht
    simp only [encodeTxn, BitVec.toNat_ofNat, Nat.mod_eq_of_lt hn]
  | C =>
    obtain ⟨⟨hn, hv⟩, ht⟩ := Option.ite_none_right_eq_some.1 h
    cases ht
    simp only [encodeTxn, BitVec.toNat_ofNat, Nat.mod_eq_of_lt hn, Nat.mod_eq_of_lt hv]
  | O =>
    obtain ⟨⟨hn, rfl⟩, ht⟩ := Option.ite_none_right_eq_some.1 h
    cases ht
    simp only [encodeTxn, BitVec.toNat_ofNat, Nat.mod_eq_of_lt hn]

/-- Settles O5. -/
theorem scriptLinesAndTransactionsAgree : Obligations.ScriptLinesAndTransactionsAgree :=
  ⟨decodeTxn_encodeTxn, fun _ _ => encodeTxn_of_decodeTxn⟩

end Sys2Proof

namespace Sys2Proof.Machine

/-! ## Registers by the host port -/

/-! ### Register numbers -/

@[simp] theorem regOfNumber_numberOfReg (g : Reg) : regOfNumber (numberOfReg g) = some g := by cases g <;> rfl

/-- No two registers share a number (R14). -/
theorem numberOfReg_of_regOfNumber {r : BitVec 4} {g : Reg} (h : regOfNumber r = some g) : r = numberOfReg g := by
  have all : ∀ r : BitVec 4, ∀ g ∈ regOfNumber r, r = numberOfReg g := by decide
  exact all r g h

/-! ### A register after a write -/

/-- The registers a host's write stores into (R15). -/
def readWriteRegs : List Reg := [.rows, .columns, .bitDepth, .frameCount, .frameIndex, .dataLen, .outLen]

/-- One read after one write, over all pairs of registers (R69, R70). -/
theorem readReg_writeReg (s : State) (v : BitVec 129) (g h : Reg) :
    readReg (writeReg s v g) h =
      if h = g ∧ g ∈ readWriteRegs then (v.setWidth g.width).setWidth 129 else readReg s h := by
  cases g <;> cases h <;> rfl

theorem readReg_writeReg_other (s : State) (v : BitVec 129) {g h : Reg} (hne : h ≠ g) :
    readReg (writeReg s v g) h = readReg s h := by
  rw [readReg_writeReg, if_neg fun hsame => hne hsame.1]

/-- A value of the register's width reads back whole. -/
theorem readReg_writeReg_same (s : State) {v : BitVec 129} {g : Reg} (hg : g ∈ readWriteRegs)
    (hv : v.toNat < 2 ^ g.width) : readReg (writeReg s v g) g = v := by
  rw [readReg_writeReg, if_pos ⟨rfl, hg⟩]
  apply BitVec.eq_of_toNat_eq
  rw [BitVec.toNat_setWidth, BitVec.toNat_setWidth, Nat.mod_eq_of_lt hv, Nat.mod_eq_of_lt v.isLt]

/-- A write changes nothing but the read/write registers. -/
theorem writeReg_eq (s : State) (v : BitVec 129) (g : Reg) :
    writeReg s v g =
      { s with
        rows := (writeReg s v g).rows
        columns := (writeReg s v g).columns
        bitDepth := (writeReg s v g).bitDepth
        frameCount := (writeReg s v g).frameCount
        frameIndex := (writeReg s v g).frameIndex
        dataLen := (writeReg s v g).dataLen
        outLen := (writeReg s v g).outLen } := by
  cases g <;> rfl

/-! ### What the port answers to WR and RD -/

theorem hostWrite_of_busy {s : State} (r : BitVec 4) (v : BitVec 129) (hb : s.status.busy = true) :
    hostWrite r v s = .next s := by
  rw [hostWrite, if_pos hb]

theorem hostWrite_of_readWrite {s : State} {g : Reg} (v : BitVec 129) (hb : s.status.busy = false)
    (hg : g ∈ readWriteRegs) : hostWrite (numberOfReg g) v s = .next (writeReg s v g) := by
  simp only [hostWrite, hb, regOfNumber_numberOfReg, Bool.false_eq_true, if_false]
  cases g with
  | cmd => exact absurd hg (by decide)
  | _ => rfl

theorem hostWrite_cmd {s : State} (v : BitVec 129) (hb : s.status.busy = false) :
    hostWrite (numberOfReg .cmd) v s = presentByte (v.setWidth 8) s := by
  simp only [hostWrite, hb, regOfNumber_numberOfReg, Bool.false_eq_true, if_false]

/-- The value `RD` of a register returns (R70, R15). -/
def readValue (s : State) (g : Reg) : BitVec 129 :=
  if s.status.busy && unspecifiedWhileBusy g then regWhileBusy s g else readReg s g

theorem readValue_of_idle {s : State} (g : Reg) (hb : s.status.busy = false) : readValue s g = readReg s g := by
  rw [readValue, hb, Bool.false_and, if_neg Bool.false_ne_true]

theorem readValue_of_specified (s : State) {g : Reg} (hg : unspecifiedWhileBusy g = false) :
    readValue s g = readReg s g := by
  rw [readValue, hg, Bool.and_false, if_neg Bool.false_ne_true]

theorem hostRead_numberOfReg (s : State) (g : Reg) :
    ∃ t, hostRead (numberOfReg g) s = .next t ∧ t.hRdata = readValue s g := by
  simp only [hostRead, regOfNumber_numberOfReg, readValue]
  split_ifs
  · exact ⟨_, rfl, rfl⟩
  · exact ⟨_, rfl, rfl⟩

theorem hostRead_reserved (s : State) {r : BitVec 4} (hr : 0xC ≤ r.toNat) :
    hostRead r s = .next { s with hRdata := 0 } := by
  simp only [hostRead, regOfNumber_reserved r hr]

/-- Settles O39: the port stores the value, whose bits the register's width holds. -/
theorem writtenRegistersReadBack : Obligations.WrittenRegistersReadBack := by
  intro s g v hb hg hv
  have hwrite : performTxn (.writeReg (numberOfReg g) v) s = .next (writeReg s v g) := hostWrite_of_readWrite v hb hg
  have hb' : (writeReg s v g).status.busy = false := by rw [writeReg_eq]; exact hb
  obtain ⟨u, hread, hu⟩ := hostRead_numberOfReg (writeReg s v g) g
  rw [readValue_of_idle g hb', readReg_writeReg_same s hg hv] at hu
  refine ⟨_, u, hwrite, hread, hu, fun h => readReg_writeReg_other s v, ?_⟩
  and_intros <;> rw [writeReg_eq]

/-! ### What a read shows -/

/-- STATUS has its fields at their bits (R24). -/
theorem statusByte_toNat :
    ∀ st : Status, (statusByte st).toNat =
      16 * st.errCode.toNat + 4 * st.err.toNat + 2 * st.done.toNat + st.busy.toNat := by
  have all : ∀ (busy done err : Bool) (code : BitVec 4), (statusByte ⟨busy, done, err, code⟩).toNat =
      16 * code.toNat + 4 * err.toNat + 2 * done.toNat + busy.toNat := by decide
  exact fun ⟨busy, done, err, code⟩ => all busy done err code

/-- A read always answers: a register shows its value, a reserved number 0, and only the read port and the count of free
values change (R70, R29). -/
theorem hostRead_spec (s : State) (r : BitVec 4) :
    ∃ t, hostRead r s = .next t ∧ t = { s with hRdata := t.hRdata, freeCount := t.freeCount } ∧
      (∀ g, r = numberOfReg g → t.hRdata = readValue s g) ∧ (0xC ≤ r.toNat → t.hRdata = 0) := by
  cases hr : regOfNumber r with
  | none =>
    refine ⟨{ s with hRdata := 0 }, by simp only [hostRead, hr], rfl, fun g hg => ?_, fun _ => rfl⟩
    rw [hg, regOfNumber_numberOfReg] at hr
    cases hr
  | some g =>
    obtain rfl := numberOfReg_of_regOfNumber hr
    obtain ⟨t, ht, hvalue⟩ := hostRead_numberOfReg s g
    refine ⟨t, ht, hostRead_next ht, fun h hh => ?_, fun hge => ?_⟩
    · rw [hh, regOfNumber_numberOfReg] at hr
      cases hr
      exact hvalue
    · rw [regOfNumber_reserved _ hge] at hr
      cases hr

section ReadWhileBusy
variable {s : State} {q : Running} {g : Reg}

/-- While a command runs a register it may write shows as it was at acceptance or as the command leaves it (R143). -/
theorem readValue_before_or_after (hb : s.status.busy = true) (hg : unspecifiedWhileBusy g = true) :
    readValue s g = regBefore s g ∨ readValue s g = regAfter s g := by
  rw [readValue, hb, hg, Bool.and_self, if_pos rfl]
  exact regWhileBusy_cases s g

theorem regBefore_of_running (hq : runningOf s = some q) : regBefore s g = readReg (restoreRegs q.before s) g := by
  simp only [regBefore, hq]

/-- A DECODE writes the four registers with its latches (R105, R106). -/
theorem regAfter_of_decode (hq : runningOf s = some q) (hop : q.op = .decode) :
    regAfter s g =
      readReg (setLengths q.fbsL q.mL (setFrameRegs { pixels := q.mL, bytes := q.fbsL, offset := q.seekL } s)) g := by
  simp only [regAfter, hq, hop]

/-- Another command writes none of them as it runs (R90). -/
theorem regAfter_of_not_decode (hq : runningOf s = some q) (hop : q.op ≠ .decode) : regAfter s g = readReg s g := by
  simp only [regAfter, hq]
  cases h : q.op with
  | decode => exact absurd h hop
  | _ => rfl

theorem readValue_of_decode (hb : s.status.busy = true) (hg : unspecifiedWhileBusy g = true)
    (hq : runningOf s = some q) (hop : q.op = .decode) :
    readValue s g = readReg (restoreRegs q.before s) g ∨
      readValue s g =
        readReg (setLengths q.fbsL q.mL (setFrameRegs { pixels := q.mL, bytes := q.fbsL, offset := q.seekL } s)) g := by
  rw [← regBefore_of_running hq, ← regAfter_of_decode hq hop]
  exact readValue_before_or_after hb hg

theorem readValue_of_not_decode (hb : s.status.busy = true) (hg : unspecifiedWhileBusy g = true)
    (hq : runningOf s = some q) (hop : q.op ≠ .decode) :
    readValue s g = readReg (restoreRegs q.before s) g ∨ readValue s g = readReg s g := by
  rw [← regBefore_of_running hq, ← regAfter_of_not_decode hq hop]
  exact readValue_before_or_after hb hg

end ReadWhileBusy

/-- Settles O42: register by register from what a read shows; while busy the four registers a DECODE writes show their
old or their new value. -/
theorem registerReadsReturnTheRegister : Obligations.RegisterReadsReturnTheRegister := by
  intro s
  refine ⟨statusByte_toNat s.status, fun r => ?_⟩
  obtain ⟨t, hread, hframe, hreg, hreserved⟩ := hostRead_spec s r
  have hspecified : ∀ g, unspecifiedWhileBusy g = false → r = numberOfReg g → t.hRdata = readReg s g :=
    fun g hg h => (hreg g h).trans (readValue_of_specified s hg)
  refine ⟨t, hread, hframe, hspecified .rows rfl, hspecified .columns rfl, hspecified .bitDepth rfl,
    hspecified .frameCount rfl, hspecified .frameIndex rfl, hspecified .status rfl, hspecified .srcLen rfl,
    fun h => h.elim (hspecified .cmd rfl) hreserved, fun hb => ?_, fun q hb hq hop => ?_, fun q hb hq hop => ?_⟩
  · have hidle : ∀ g, r = numberOfReg g → t.hRdata = readReg s g :=
      fun g h => (hreg g h).trans (readValue_of_idle g hb)
    exact ⟨hidle .dataLen, hidle .outLen, hidle .frameByteSize, hidle .seekOffset⟩
  · have hdecode := fun g hg h => hreg g h ▸ readValue_of_decode (g := g) hb hg hq hop
    exact ⟨hdecode .dataLen rfl, hdecode .outLen rfl, hdecode .frameByteSize rfl, hdecode .seekOffset rfl⟩
  · have hother := fun g hg h => hreg g h ▸ readValue_of_not_decode (g := g) hb hg hq hop
    exact ⟨hother .dataLen rfl, hother .outLen rfl, hother .frameByteSize rfl, hother .seekOffset rfl⟩

/-! ## CHUNK by the host port -/

section ChunkWrite
variable {s : State} (j : BitVec 65) (b : Byte)

theorem chunkWrite_of_busy (hb : s.status.busy = true) : chunkWrite j b s = .next s := by
  rw [chunkWrite, if_pos hb]

theorem chunkWrite_of_idle (hb : s.status.busy = false) (hf : fits s.params.chunkCap (j.toNat + 1) = true) :
    chunkWrite j b s = .next { s with chunk := s.chunk.write j.toNat b } := by
  rw [chunkWrite, hb, if_neg Bool.false_ne_true, if_pos hf]

theorem chunkWrite_beyond (hb : s.status.busy = false) (hf : fits s.params.chunkCap (j.toNat + 1) = false) :
    chunkWrite j b s = .refused .chunkCapacityExceeded := by
  rw [chunkWrite, hb, hf, if_neg Bool.false_ne_true, if_neg Bool.false_ne_true]

end ChunkWrite

/-- Settles O43: by BUSY and the capacity; the cells by the laws of one write. -/
theorem chunkWriteDefinesTheCell : Obligations.ChunkWriteDefinesTheCell := by
  intro s j b
  exact ⟨chunkWrite_of_busy j b,
    fun hb hf => ⟨_, chunkWrite_of_idle j b hb hf, Memory.read_write_same _ _ _,
      fun _ ha => Memory.read_write_other _ _ ha, rfl⟩,
    chunkWrite_beyond j b⟩

/-! ### A packet -/

/-- The bytes written one after another from index `j` on. -/
def Memory.writeFrom (m : Memory 8) : Nat → List Byte → Memory 8
  | _, [] => m
  | j, b :: bytes => Memory.writeFrom (Memory.write m j b) (j + 1) bytes

theorem Memory.read_writeFrom (bytes : List Byte) (m : Memory 8) (j a : Nat) :
    Memory.read (Memory.writeFrom m j bytes) a =
      if j ≤ a ∧ a < j + bytes.length then bytes[a - j]? else Memory.read m a := by
  induction bytes generalizing m j with
  | nil => rw [if_neg (by simp)]; rfl
  | cons b bytes ih =>
    rw [Memory.writeFrom, ih, Memory.read_write, List.length_cons]
    obtain hlt | rfl | hgt := lt_trichotomy a j
    · rw [if_neg (by omega), if_neg (by omega), if_neg (by omega)]
    · rw [if_neg (by omega), if_pos rfl, if_pos (by omega), Nat.sub_self, List.getElem?_cons_zero]
    · have hsub : a - j = a - (j + 1) + 1 := by omega
      rw [if_neg (by omega : a ≠ j), hsub, List.getElem?_cons_succ]
      exact if_congr (by omega) rfl rfl

theorem performEvents_append (xs ys : List Event) (s : State) :
    performEvents (xs ++ ys) s = andThen (performEvents xs s) (performEvents ys) := by
  induction xs generalizing s with
  | nil => rfl
  | cons e xs ih =>
    simp only [List.cons_append, performEvents, funext ih, andThen_assoc]

/-- Chunk writes within the port's index range and the capacity put the bytes in CHUNK (R71, R75). -/
theorem performEvents_chunkWritesFrom (bytes : List Byte) {s : State} {j : Nat} (hb : s.status.busy = false)
    (hj : j + bytes.length ≤ 2 ^ 65) (hf : fits s.params.chunkCap (j + bytes.length) = true) :
    performEvents (chunkWritesFrom j bytes) s = .next { s with chunk := Memory.writeFrom s.chunk j bytes } := by
  induction bytes generalizing s j with
  | nil => rfl
  | cons b bytes ih =>
    rw [List.length_cons] at hj hf
    have hindex : (BitVec.ofNat 65 j).toNat = j := by rw [BitVec.toNat_ofNat]; omega
    have hcap : fits s.params.chunkCap ((BitVec.ofNat 65 j).toNat + 1) = true := by
      rw [hindex]; exact fits_mono (by omega) hf
    have hwrite : performEvent (.host (.chunkWrite (BitVec.ofNat 65 j) b)) s =
        .next { s with chunk := s.chunk.write (BitVec.ofNat 65 j).toNat b } := chunkWrite_of_idle _ b hb hcap
    rw [chunkWritesFrom, performEvents, hwrite, andThen_next, hindex]
    exact ih (s := { s with chunk := s.chunk.write j b }) hb (by omega) (fits_mono (by omega) hf)

/-- A register write as the expansions of R75 make it. -/
theorem performEvent_writeOf {s : State} {g : Reg} (n : Nat) (hb : s.status.busy = false) (hg : g ∈ readWriteRegs) :
    performEvent (writeOf g n) s = .next (writeReg s (BitVec.ofNat 129 n) g) :=
  hostWrite_of_readWrite _ hb hg

theorem performEvents_loadChunk (bytes : List Byte) {s : State} (hb : s.status.busy = false)
    (hlen : bytes.length ≤ 2 ^ 65) (hf : fits s.params.chunkCap bytes.length = true) :
    performEvents (expandPseudo (.loadChunk bytes)) s =
      .next
        { s with dataLen := BitVec.ofNat 65 bytes.length, chunk := Memory.writeFrom s.chunk 0 bytes } := by
  have hchunk := performEvents_chunkWritesFrom bytes (j := 0) hb (by omega) (by rwa [Nat.zero_add])
  have hdata := performEvent_writeOf (s := { s with chunk := Memory.writeFrom s.chunk 0 bytes }) (g := .dataLen)
    bytes.length hb (by decide)
  rw [expandPseudo, performEvents_append, hchunk, andThen_next, performEvents, hdata, andThen_next, performEvents,
    writeReg, BitVec.setWidth_ofNat_of_le (by decide)]

/-- Settles O44. -/
theorem loadChunkPlacesThePacket : Obligations.LoadChunkPlacesThePacket := by
  intro s bytes hb hlen hf
  refine ⟨_, performEvents_loadChunk bytes hb hlen.le hf, Nat.mod_eq_of_lt hlen, fun j hj => ?_,
    fun j hj => ?_, rfl⟩
  · rw [Memory.read_writeFrom, if_pos (by omega), Nat.sub_zero]
  · rw [Memory.read_writeFrom, if_neg (by omega)]

/-! ## The step and the commands presented -/

theorem step_of_agenda {s : State} {e : Event} {tail : List Event} (h : s.agenda = e :: tail) :
    step s = performEvent e { s with agenda := tail } := by
  simp only [step, h]

theorem presentByte_of_command {s : State} {c : Byte} {i : Instr} {rest : List Byte}
    (h : decode .cmd8 [c] = .instr i rest) : presentByte c s = performCommand i s := by
  simp only [presentByte, h]

theorem performCommand_of_bigStep {s : State} (i : Instr) (h : s.params.reading = .bigStep) :
    performCommand i s = exec i s := by
  simp only [performCommand, h]

theorem performCommand_of_microStep {s : State} (i : Instr) (h : s.params.reading = .microStep) :
    performCommand i s = startCommand i s := by
  simp only [performCommand, h]

/-- Settles O49: the step is the host's write to CMD, which presents the byte while idle and is dropped while busy. -/
theorem stepRunsThePresentedCommand : Obligations.StepRunsThePresentedCommand := by
  intro s v tail i rest ha hi
  have hstep : step s = hostWrite (numberOfReg .cmd) v { s with agenda := tail } := step_of_agenda ha
  have hidle (hb : s.status.busy = false) : step s = performCommand i { s with agenda := tail } :=
    calc step s = hostWrite (numberOfReg .cmd) v { s with agenda := tail } := hstep
      _ = presentByte (v.setWidth 8) { s with agenda := tail } := hostWrite_cmd v hb
      _ = performCommand i { s with agenda := tail } := presentByte_of_command hi
  exact ⟨fun hb hr => (hidle hb).trans (performCommand_of_bigStep i hr),
    fun hb hr => (hidle hb).trans (performCommand_of_microStep i hr),
    fun hb => hstep.trans (hostWrite_of_busy _ v hb)⟩

end Sys2Proof.Machine

namespace Sys2Proof.Machine

/-! ## The unpack function -/

/-! ### Samples in their words -/

/-- A sample's fields are those of its word: the word zero-extends it (R63). -/
theorem extractLsb'_wordOfSample (v : Sample) {i n : Nat} (h : i + n ≤ 12) :
    (wordOfSample v).extractLsb' i n = v.extractLsb' i n :=
  BitVec.extractLsb'_setWidth_of_le (by omega)

theorem setWidth_wordOfSample (v : Sample) : (wordOfSample v).setWidth 12 = v :=
  (BitVec.setWidth_setWidth_of_le v (by decide)).trans (BitVec.setWidth_eq v)

theorem wordOfSample_toNat (v : Sample) : (wordOfSample v).toNat = v.toNat :=
  BitVec.toNat_setWidth_of_le (by decide)

/-- A word within 12 bits is the word of its low 12 bits (R63, R77). -/
theorem wordOfSample_setWidth {w : Word} (h : w.toNat ≤ 4095) : wordOfSample (w.setWidth 12) = w := by
  apply BitVec.eq_of_toNat_eq
  rw [wordOfSample_toNat, BitVec.toNat_setWidth]
  omega

/-- Bits 15:12 of a sample's word are 0 (R77). -/
theorem wordOfSample_high (v : Sample) : (wordOfSample v).extractLsb' 12 4 = 0 := by
  have hv := v.isLt
  apply BitVec.eq_of_toNat_eq
  rw [BitVec.extractLsb'_toNat, wordOfSample_toNat, Nat.shiftRight_eq_div_pow]
  change _ = 0
  omega

/-! ### The fields of the samples -/

theorem evenField_low (b0 b1 : Byte) : (evenField b0 b1).extractLsb' 0 4 = b1.extractLsb' 4 4 := by
  rw [evenField, BitVec.extractLsb'_append_eq_right]

theorem oddField_high (b1 b2 : Byte) : (oddField b1 b2).extractLsb' 8 4 = b1.extractLsb' 0 4 := by
  rw [oddField, BitVec.extractLsb'_append_eq_left]

/-- Settles O6: the samples are the words of the decoder's fields, which R64 assembles from the bytes. -/
theorem unpackFunctionInArithmetic : Obligations.UnpackFunctionInArithmetic := by
  intro b0 b1 b2
  refine ⟨rfl, rfl, ?_, ?_, ?_, ?_, sampleEven_toNat b0 b1, sampleOdd_toNat b1 b2, ?_,
    sampleEven_eq_field b0 b1, sampleOdd_eq_field b1 b2⟩
  · rw [sampleEven_eq_field, extractLsb'_wordOfSample _ (by decide)]
    exact tripletByte0_of_fields b0 b1
  · rw [sampleEven_eq_field, extractLsb'_wordOfSample _ (by decide), evenField_low]
  · rw [sampleOdd_eq_field, extractLsb'_wordOfSample _ (by decide), oddField_high]
  · rw [sampleOdd_eq_field, extractLsb'_wordOfSample _ (by decide)]
    exact tripletByte2_of_fields b1 b2
  · rw [sampleEven_eq_field, sampleOdd_eq_field, setWidth_wordOfSample, setWidth_wordOfSample]
    exact decode_data24_eq_instr.2 ⟨b0, b1, b2, rfl, rfl⟩

/-- Settles O7. -/
theorem samplesStayWithinTwelveBits : Obligations.SamplesStayWithinTwelveBits := by
  refine ⟨fun b0 b1 b2 => ⟨sampleEven_le b0 b1, sampleOdd_le b1 b2, ?_, ?_⟩, by decide⟩
  · rw [sampleEven_eq_field, wordOfSample_high]
  · rw [sampleOdd_eq_field, wordOfSample_high]

/-! ### The inverse -/

theorem tripletByte1_toNat (e o : Sample) : (tripletByte1 e o).toNat = 16 * (e.toNat % 16) + o.toNat / 256 := by
  have ho := o.isLt
  rw [tripletByte1, BitVec.toNat_append, BitVec.extractLsb'_toNat, BitVec.extractLsb'_toNat, Nat.shiftRight_zero,
    Nat.shiftRight_eq_div_pow, ← Nat.shiftLeft_add_eq_or_of_lt (Nat.mod_lt _ (by decide)), Nat.shiftLeft_eq]
  omega

/-- R79's formula for `b0` is the bit table of R62. -/
theorem inverse_byte0 (e : Sample) : (wordOfSample e >>> 4).setWidth 8 = tripletByte0 e := by
  rw [BitVec.setWidth_ushiftRight_eq_extractLsb, extractLsb'_wordOfSample e (by decide), tripletByte0]

/-- R79's formula for `b1`: the two terms of the `|` share no bit. -/
theorem inverse_byte1 (e o : Sample) :
    (((wordOfSample e &&& 0xF) <<< 4) ||| (wordOfSample o >>> 8)).setWidth 8 = tripletByte1 e o := by
  have ho := o.isLt
  have hmask : (wordOfSample e &&& 0xF).toNat = e.toNat % 16 := by
    rw [BitVec.toNat_and, wordOfSample_toNat]
    exact Nat.and_two_pow_sub_one_eq_mod e.toNat 4
  have hhigh : ((wordOfSample e &&& 0xF) <<< 4).toNat = (e.toNat % 16) <<< 4 := by
    rw [BitVec.toNat_shiftLeft, hmask, Nat.shiftLeft_eq]; omega
  have hlow : (wordOfSample o >>> 8).toNat = o.toNat / 256 := by
    rw [BitVec.toNat_ushiftRight, wordOfSample_toNat, Nat.shiftRight_eq_div_pow]
  apply BitVec.eq_of_toNat_eq
  rw [BitVec.toNat_setWidth, BitVec.toNat_or, hhigh, hlow, ← Nat.shiftLeft_add_eq_or_of_lt (by omega),
    Nat.shiftLeft_eq, tripletByte1_toNat]
  omega

/-- R79's formula for `b2`: the mask keeps all bits that the byte keeps. -/
theorem inverse_byte2 (o : Sample) : (wordOfSample o &&& 0xFF).setWidth 8 = tripletByte2 o := by
  have hmask : (0xFF : Word).setWidth 8 = BitVec.allOnes 8 := by decide
  rw [BitVec.setWidth_and, hmask, BitVec.and_allOnes, BitVec.setWidth_eq_extractLsb' (by decide),
    extractLsb'_wordOfSample o (by decide), tripletByte2]

/-- Settles O8: R79's inverse is the encoder of R62, so both directions are the decoder's fields against the
encoder's bytes. -/
theorem unpackFunctionIsABijection : Obligations.UnpackFunctionIsABijection := by
  refine ⟨fun b0 b1 b2 => ?_, fun e o he ho => ?_⟩
  · rw [sampleEven_eq_field, sampleOdd_eq_field, inverse_byte0, inverse_byte1, inverse_byte2]
    exact ⟨(tripletByte0_of_fields b0 b1).symm, (tripletByte1_of_fields b0 b1 b2).symm,
      (tripletByte2_of_fields b1 b2).symm⟩
  · rw [← wordOfSample_setWidth he, ← wordOfSample_setWidth ho, inverse_byte0, inverse_byte1, inverse_byte2,
      sampleEven_eq_field, sampleOdd_eq_field, evenField_of_tripletBytes, oddField_of_tripletBytes]
    exact ⟨rfl, rfl⟩

/-! ## The kernel's loop -/

/-- Settles O23. -/
theorem kernelIsItsClosedForm : Obligations.KernelIsItsClosedForm := by
  intro chunk out out' n h k
  obtain ⟨hread, hdef, -⟩ := unpackRange_spec h
  refine ⟨fun hk => ?_, fun hk => ?_⟩
  · rw [hread, if_pos (by omega)]
    exact ⟨rfl, sampleOf_ne_none.2 (hdef (k / 2) (by omega) (by omega))⟩
  · rw [hread, if_neg (by omega)]

/-- Lists that name the same triplets have the same result, whatever their order: both refuse, or both leave canonical
memories that read alike (R87). -/
theorem unpackList_congr_mem {chunk : Memory 8} {l m : List Nat} {out : Memory 16} (hw : Memory.wf out = true)
    (h : ∀ i, i ∈ l ↔ i ∈ m) : unpackList chunk l out = unpackList chunk m out := by
  have hnone : unpackList chunk l out ≠ none ↔ unpackList chunk m out ≠ none := by
    simp only [unpackList_ne_none, h]
  cases hl : unpackList chunk l out with
  | none => exact (not_not.1 fun hm => hnone.2 hm hl).symm
  | some a =>
    obtain ⟨b, hm⟩ := Option.ne_none_iff_exists'.1 (hnone.1 (by simp [hl]))
    obtain ⟨reada, -, wfa⟩ := unpackList_spec hl
    obtain ⟨readb, -, wfb⟩ := unpackList_spec hm
    rw [hm, Memory.ext_of_wf (wfa hw) (wfb hw) fun k => by simp only [reada, readb, h]]

/-- Settles O22: every order and every split runs a list that names the triplets 0 to n-1. -/
theorem orderOfTripletsDoesNotMatter : Obligations.OrderOfTripletsDoesNotMatter := by
  intro chunk out n hw
  refine ⟨fun l hl => ?_, ?_⟩
  · rw [unpackRange_eq_unpackList, ← List.range_eq_range']
    exact unpackList_congr_mem hw fun i => hl.mem_iff
  · rintro p q rfl
    refine ⟨by rw [unpackRange_add, Nat.zero_add], ?_⟩
    calc (unpackRange chunk q p out).bind (unpackRange chunk p 0)
        = (unpackList chunk (List.range' p q) out).bind (unpackList chunk (List.range' 0 p)) := by
          simp only [unpackRange_eq_unpackList]
      _ = unpackList chunk (List.range' p q ++ List.range' 0 p) out := (unpackList_append _ _ _ _).symm
      _ = unpackList chunk (List.range' 0 (p + q)) out :=
          unpackList_congr_mem hw fun i => by simp only [List.mem_append, List.mem_range'_1]; omega
      _ = unpackRange chunk (p + q) 0 out := (unpackRange_eq_unpackList _ _ _ _).symm

/-! ## UNPACK -/

/-- UNPACK on lengths that do not match (R82, R129). -/
theorem execUnpack_of_mismatch {s : State} (hb : s.status.busy = false)
    (hc : fits s.params.chunkCap s.dataLen.toNat = true) (ho : fits s.params.outCap s.outLen.toNat = true)
    (hk : kernelOk s.dataLen.toNat s.outLen.toNat = false) :
    exec .unpack s = .next (raiseError .precondition (accept s)) := by
  change execUnpack s = _
  simp [execUnpack, hb, hc, ho, hk]

/-- Settles O19. -/
theorem unpackRejectsLengthsThatDoNotMatch : Obligations.UnpackRejectsLengthsThatDoNotMatch := by
  rintro s l m rfl rfl hb hc ho hlen
  exact ⟨_, execUnpack_of_mismatch hb hc ho (kernelOk_false_iff.2 hlen), statusByte_error .precondition, rfl⟩

/-- The two words of a triplet, by the formulas of R76. -/
theorem sampleOf_of_tripletAt {chunk : Memory 8} {i : Nat} {b0 b1 b2 : Byte}
    (h : tripletAt chunk i = some (b0, b1, b2)) :
    sampleOf chunk (2 * i) = some (sampleEven b0 b1) ∧ sampleOf chunk (2 * i + 1) = some (sampleOdd b1 b2) := by
  have heven : 2 * i / 2 = i := by omega
  have hodd : (2 * i + 1) / 2 = i := by omega
  simp [sampleOf, heven, hodd, h, Nat.add_mod]

/-- Settles O18: the lengths match and the cells are defined, so the kernel's loop runs through. -/
theorem unpackFillsTheOutputBuffer : Obligations.UnpackFillsTheOutputBuffer := by
  rintro s l m hl rfl hb hc ho hthree hlen hdef
  subst hl
  have hcells : ∀ i, 0 ≤ i → i < 0 + s.dataLen.toNat / 3 → tripletAt s.chunk i ≠ none :=
    tripletsDefined_iff.2 fun j _ hj => hdef j (by omega)
  obtain ⟨out, hu⟩ := Option.ne_none_iff_exists'.1 (unpackRange_ne_none (out := s.out).2 hcells)
  have hclosed := kernelIsItsClosedForm _ _ _ _ hu
  refine ⟨unpacked s out, execUnpack_of_ok hb hc ho (kernelOk_iff.2 ⟨hthree, hlen⟩) hu, ?_, fun i hi => ?_,
    fun k hk => ?_, fun k hk => (hclosed k).2 (by omega), rfl⟩
  · exact statusByte_done_accepted s.status
  · obtain ⟨⟨b0, b1, b2⟩, ht⟩ := Option.ne_none_iff_exists'.1 (hcells i (by omega) (by omega))
    obtain ⟨h0, h1, h2⟩ := tripletAt_eq_some.1 ht
    obtain ⟨heven, hodd⟩ := sampleOf_of_tripletAt ht
    exact ⟨b0, b1, b2, h0, h1, h2, ((hclosed _).1 (by omega)).1.trans heven, ((hclosed _).1 (by omega)).1.trans hodd⟩
  · obtain ⟨hsample, hne⟩ := (hclosed k).1 (by omega)
    obtain ⟨w, hw⟩ := Option.ne_none_iff_exists'.1 hne
    exact ⟨w, hw, sampleOf_le (hsample.symm.trans hw)⟩

/-- Settles O38: what UNPACK tests and reads (STATUS, the capacities, the lengths, CHUNK and OUT) is the same in both
states, so both take the same branch. -/
theorem unpackReadsNoGeometryAndNoSource : Obligations.UnpackReadsNoGeometryAndNoSource := by
  intro s rows columns bitDepth frameCount frameIndex len src
  change execUnpack _ = mapNext _ (execUnpack s)
  simp only [withGeometry]
  simp only [execUnpack]
  split_ifs
  case neg => cases unpackRange s.chunk (s.dataLen.toNat / 3) 0 s.out <;> rfl
  all_goals rfl

/-! ## The running kernel -/

/-- Settles O24. -/
theorem tripletWritesItsTwoSamples : Obligations.TripletWritesItsTwoSamples := by
  intro s r e o hs
  refine ⟨_, execTriplet_of_run e o hs, ?_, ?_, fun k h0 h1 => ?_, rfl⟩
  · rw [read_writePair, if_pos rfl]; rfl
  · rw [read_writePair, if_neg (by omega), if_pos rfl]; rfl
  · rw [read_writePair, if_neg h0, if_neg h1]

/-- Settles O26: the step is the kernel's loop over the next `g` triplets, then the test for the end. -/
theorem kernelStepTakesOneTripletPerLane : Obligations.KernelStepTakesOneTripletPerLane := by
  intro s r g hs hg hti hdef
  obtain ⟨out, hu⟩ := Option.ne_none_iff_exists'.1 (unpackRange_ne_none (out := s.out).2 (tripletsDefined_iff.2 hdef))
  obtain ⟨hread, -, -⟩ := unpackRange_spec hu
  have hnew : ∀ k, 2 * r.ti ≤ k → k < 2 * (r.ti + g) → Memory.read out k = sampleOf s.chunk k := fun k h1 h2 => by
    rw [hread, if_pos (by omega)]
  have hkept : ∀ k, k < 2 * r.ti ∨ 2 * (r.ti + g) ≤ k → Memory.read out k = Memory.read s.out k := fun k h => by
    rw [hread, if_neg (by omega)]
  have hstep := kernelStep_spec hs hg
  rw [hu] at hstep
  obtain ⟨lanes, hlanes, hstep⟩ := hstep
  by_cases hend : r.ti + g = r.nL
  · rw [if_pos hend] at hstep
    exact ⟨_, hstep, hnew, hkept, fun _ => ⟨rfl, rfl, rfl, rfl, rfl⟩, fun h => absurd hend h.ne⟩
  · rw [if_neg hend] at hstep
    exact ⟨_, hstep, hnew, hkept, fun h => absurd h hend, fun _ => ⟨lanes, hlanes, rfl⟩⟩

theorem step_of_no_agenda {s : State} (h : s.agenda = []) : step s = advance s := by
  simp only [step, h]

/-- The kernel fetches what the decoder reads from its three cells (R62, R83). -/
theorem fetchTriplet_of_decode {chunk : Memory 8} {k : Nat} {b0 b1 b2 : Byte} {i : Instr} {rest : List Byte}
    (ht : tripletAt chunk k = some (b0, b1, b2)) (hi : decode .data24 [b0, b1, b2] = .instr i rest) :
    fetchTriplet chunk k = some i := by
  simp only [fetchTriplet, ht, hi]

/-- One iteration of a running kernel is the triplet at TI (R89). -/
theorem kernelIterate_one {s : State} {r : Running} {i : Instr} (hs : s.seq = .run r)
    (hi : fetchTriplet s.chunk r.ti = some i) : kernelIterate 1 s = exec i s := by
  simp only [kernelIterate, hs, hi]
  cases exec i s <;> rfl

/-- Settles O51: with one lane and a triplet left the kernel step is one iteration. -/
theorem stepRunsTheTripletAtTheIndex : Obligations.StepRunsTheTripletAtTheIndex := by
  intro s r b0 b1 b2 i rest ha hs hti hl h0 h1 h2 hi
  have hcount : min s.params.lanes (r.nL - r.ti) = 1 := by omega
  have hfetch : fetchTriplet s.chunk r.ti = some i := fetchTriplet_of_decode (tripletAt_eq_some.2 ⟨h0, h1, h2⟩) hi
  have hrun := kernelIterate_one (s := { s with seq := .run { r with laneRegs := [] } }) rfl hfetch
  rw [step_of_no_agenda ha]
  simp only [advance, hs, kernelStep, hcount, hrun]

end Sys2Proof.Machine

namespace Sys2Proof.Machine

/-! ## The frame-addressing adder -/

/-! ### Its arithmetic -/

/-- The width of frame_byte_size (R95, R98). -/
theorem frameBytes_lt {n : Nat} (h : n < 2 ^ 64) : frameBytes n < 2 ^ 65 := by
  simp only [frameBytes]; omega

/-- A frame ends where the next one would begin (R100). -/
theorem seekOf_add_self (f : Nat) (s : State) : seekOf f s + f = (s.frameIndex.toNat + 1) * f := by
  simp only [seekOf]; ring

/-- Settles O14. -/
theorem frameByteSizeIsThreeBytesPerPixelPair : Obligations.FrameByteSizeIsThreeBytesPerPixelPair := by
  intro n hn heven
  have hbytes := frameBytes_even heven
  have htriplets := frameBytes_div_three heven
  exact ⟨rfl, by omega, frameBytes_lt hn, hbytes, by omega, by omega⟩

/-- Settles O15: 2m + 1 pixels give 3m + 1 bytes. -/
theorem oddPixelCountsNeverFillTriplets : Obligations.OddPixelCountsNeverFillTriplets := by
  intro n hn
  have hbytes : frameBytes n = 3 * (n / 2) + 1 := by simp only [frameBytes]; omega
  omega

/-- Settles O16: the largest result, the end of the frame, is FRAME_INDEX + 1 times the frame byte size. -/
theorem addressArithmeticNeverOverflows : Obligations.AddressArithmeticNeverOverflows := by
  intro s
  have hpixels := pixelCount_lt s
  have hbytes := frameBytes_lt hpixels
  have hend : seekOf (frameBytes (pixelCount s)) s + frameBytes (pixelCount s) < 2 ^ 129 :=
    calc
      _ = (s.frameIndex.toNat + 1) * frameBytes (pixelCount s) := seekOf_add_self _ s
      _ ≤ 2 ^ 64 * frameBytes (pixelCount s) := Nat.mul_le_mul_right _ s.frameIndex.isLt
      _ < 2 ^ 129 := by omega
  exact ⟨hpixels, by omega, hbytes, by omega, hend⟩

/-! ### ADDR and the frames of the source -/

/-- Settles O12: the checks pass, and the results, at most SRC_LEN, are written unwrapped. -/
theorem addrComputesTheFrame : Obligations.AddrComputesTheFrame := by
  rintro s n f o rfl rfl rfl hb hd heven hrange
  have hok : frameRange s = .ok ⟨pixelCount s, frameBytes (pixelCount s), seekOf (frameBytes (pixelCount s)) s⟩ :=
    frameRange_eq_ok.2 ⟨hd, heven, hrange, rfl⟩
  obtain ⟨hbytes, hoffset, -, -, -, -⟩ := frameRange_bounds hok
  exact ⟨_, execAddr_of_ok hb hok, Nat.mod_eq_of_lt (by omega), Nat.mod_eq_of_lt (by omega),
    statusByte_done_accepted s.status, rfl⟩

/-- With the format and the evenness right the range is the one check left, and frame `k` is `[k*F, (k+1)*F)` (R100). -/
theorem frameRange_withFrameIndex_eq_ok {s : State} {k : BitVec 64} {r : FrameRange} (hd : s.bitDepth = 12)
    (heven : pixelCount s % 2 = 0) :
    frameRange { s with frameIndex := k } = .ok r ↔
      (k.toNat + 1) * frameBytes (pixelCount s) ≤ s.srcLen.toNat ∧
        r = ⟨pixelCount s, frameBytes (pixelCount s), k.toNat * frameBytes (pixelCount s)⟩ := by
  have hseek : seekOf (frameBytes (pixelCount s)) { s with frameIndex := k } = k.toNat * frameBytes (pixelCount s) :=
    Nat.mul_comm _ _
  have hpixels : pixelCount { s with frameIndex := k } = pixelCount s := rfl
  rw [frameRange_eq_ok, hpixels, seekOf_add_self, hseek]
  exact ⟨fun ⟨_, _, hrange, hr⟩ => ⟨hrange, hr⟩, fun ⟨hrange, hr⟩ => ⟨hd, heven, hrange, hr⟩⟩

/-- Settles O17: frame `k` passes exactly when `(k+1)*F <= SRC_LEN`. -/
theorem framesTileTheSource : Obligations.FramesTileTheSource := by
  rintro s f hf hd heven
  have hok : ∀ {k : BitVec 64} {r : FrameRange}, frameRange { s with frameIndex := k } = .ok r ↔
      (k.toNat + 1) * f ≤ s.srcLen.toNat ∧ r = ⟨pixelCount s, f, k.toNat * f⟩ :=
    hf ▸ frameRange_withFrameIndex_eq_ok hd heven
  have hpasses : ∀ k : BitVec 64, (∃ r, frameRange { s with frameIndex := k } = .ok r) ↔
      (k.toNat + 1) * f ≤ s.srcLen.toNat := fun k => by
    simp only [hok, exists_and_left, exists_eq, and_true]
  refine ⟨fun k hpos => ?_, fun k r h => ?_, fun k l r hle h => ?_, fun k l r q hl h h' => ?_, fun k hzero => ?_⟩
  · have hwhole : k.toNat < s.srcLen.toNat / f ↔ (k.toNat + 1) * f ≤ s.srcLen.toNat := Nat.le_div_iff_mul_le hpos
    exact ⟨(hpasses k).trans hwhole.symm, hwhole⟩
  · obtain ⟨-, rfl⟩ := hok.1 h
    exact ⟨rfl, (Nat.succ_mul _ _).symm⟩
  · have hrange := (hpasses k).1 ⟨r, h⟩
    exact (hpasses l).2 ((Nat.mul_le_mul_right f (Nat.succ_le_succ hle)).trans hrange)
  · obtain ⟨-, rfl⟩ := hok.1 h
    obtain ⟨-, rfl⟩ := hok.1 h'
    rw [hl, Nat.succ_mul]
  · exact (hpasses k).2 (by simp [hzero])

end Sys2Proof.Machine

namespace Sys2Proof.Machine

/-! ## DECODE -/

/-! ### A DECODE that succeeds -/

/-- A successful DECODE, from its load and its kernel. -/
theorem execDecode_of_load_unpack {s : State} {f : FrameRange} {chunk : Memory 8} {out : Memory 16}
    (hb : s.status.busy = false) (hf : frameRange s = .ok f) (hc : fits s.params.chunkCap f.bytes = true)
    (ho : fits s.params.outCap f.pixels = true) (hack : f.bytes ≠ 0 → s.srcAck = true)
    (hl : loadRange s.src f.offset f.bytes 0 s.chunk = some chunk)
    (hu : unpackRange chunk (f.bytes / 3) 0 s.out = some out) : exec .decode s = .next (decoded s f chunk out) := by
  rw [execDecode_of_ok hb hf hc ho hack]
  simp only [hl, hu]

/-- A frame whose bytes the source holds is loaded, and then its triplets are unpacked (R104). -/
theorem load_unpack_of_source {s : State} {f : FrameRange} (hf : frameRange s = .ok f)
    (hsrc : ∀ j, j < f.bytes → Memory.read s.src (srcAddr f.offset j) ≠ none) :
    ∃ chunk out, loadRange s.src f.offset f.bytes 0 s.chunk = some chunk ∧
      unpackRange chunk (f.bytes / 3) 0 s.out = some out := by
  obtain ⟨-, -, -, -, hbytes, -⟩ := frameRange_bounds hf
  have hthree : 3 * (f.bytes / 3) = f.bytes := by omega
  obtain ⟨chunk, hl⟩ := Option.ne_none_iff_exists'.1
    (loadRange_ne_none (chunk := s.chunk).2 fun j _ hj => hsrc j (by rwa [Nat.zero_add] at hj))
  obtain ⟨out, hu⟩ := Option.ne_none_iff_exists'.1 (unpackRange_after_load s.out (by rwa [hthree]))
  exact ⟨chunk, out, hl, hu⟩

/-- The four registers a successful DECODE writes hold the frame unwrapped (R98, R107). -/
theorem decoded_regs_toNat {s : State} {f : FrameRange} (chunk : Memory 8) (out : Memory 16)
    (hf : frameRange s = .ok f) :
    (decoded s f chunk out).frameByteSize.toNat = f.bytes ∧ (decoded s f chunk out).seekOffset.toNat = f.offset ∧
      (decoded s f chunk out).dataLen.toNat = f.bytes ∧ (decoded s f chunk out).outLen.toNat = f.pixels := by
  obtain ⟨hbytes, hoffset, hpixels, -, -, -⟩ := frameRange_bounds hf
  exact ⟨Nat.mod_eq_of_lt (by omega), Nat.mod_eq_of_lt (by omega), Nat.mod_eq_of_lt (by omega),
    Nat.mod_eq_of_lt (by omega)⟩

/-- Settles O27: the checks pass and the frame's bytes are there, so load and kernel run through; what they wrote is read
off from `loadRange_spec`, `read_out_of_load_unpack` and `unpackRange_spec`. -/
theorem decodeReadsAndUnpacksTheFrame : Obligations.DecodeReadsAndUnpacksTheFrame := by
  rintro s n f o hn rfl rfl hb hd heven hrange hc ho hack hsrc
  obtain rfl : n = pixelCount s := hn
  have hf : frameRange s = .ok ⟨pixelCount s, frameBytes (pixelCount s), seekOf (frameBytes (pixelCount s)) s⟩ :=
    frameRange_eq_ok.2 ⟨hd, heven, hrange, rfl⟩
  obtain ⟨chunk, out, hl, hu⟩ := load_unpack_of_source hf hsrc
  obtain ⟨hload, -, -⟩ := loadRange_spec hl
  obtain ⟨hout, -, -⟩ := unpackRange_spec hu
  obtain ⟨hsize, hseek, hdata, hlen⟩ := decoded_regs_toNat chunk out hf
  have htriplets : frameBytes (pixelCount s) / 3 = pixelCount s / 2 := frameBytes_div_three heven
  refine ⟨_, execDecode_of_load_unpack hb hf hc ho (fun h0 => hack.resolve_right h0) hl hu,
    statusByte_done_accepted s.status, hsize, hseek, hdata, hlen, fun j hj => ?_, fun j hj => ?_, fun k hk => ?_,
    fun k hk => ?_, fun _ _ => rfl, rfl⟩
  · exact (hload j).trans (if_pos ⟨Nat.zero_le j, by rwa [Nat.zero_add]⟩)
  · exact (hload j).trans (if_neg fun h => by rw [Nat.zero_add] at h; exact absurd h.2 (Nat.not_lt.2 hj))
  · obtain ⟨b0, b1, b2, h0, h1, h2, hw⟩ := read_out_of_load_unpack hl hu (k := k) (by dsimp only; omega)
    refine ⟨b0, b1, b2, _, h0, h1, h2, hw, fun he => ?_, fun hodd => ?_⟩
    · rw [if_pos he, sampleEven_toNat]
    · rw [if_neg (by omega), sampleOdd_toNat]
  · exact (hout k).trans (if_neg (by dsimp only; omega))

/-! ### DECODE as ADDR, chunk writes, length writes and UNPACK -/

/-- The load of a frame is the writing of its bytes one after another (R104). -/
theorem loadRange_eq_writeFrom {src : Memory 8} {offset : Nat} (bytes : List Byte) (j : Nat) (chunk : Memory 8)
    (h : ∀ i, i < bytes.length → Memory.read src (srcAddr offset (j + i)) = bytes[i]?) :
    loadRange src offset bytes.length j chunk = some (Memory.writeFrom chunk j bytes) := by
  induction bytes generalizing j chunk with
  | nil => rfl
  | cons b bytes ih =>
    have hfirst : Memory.read src (srcAddr offset j) = some b := h 0 (Nat.succ_pos _)
    rw [List.length_cons, loadRange, hfirst]
    refine ih (j + 1) (Memory.write chunk j b) fun i hi => ?_
    rw [Nat.add_assoc, Nat.add_comm 1 i]
    exact h (i + 1) (Nat.succ_lt_succ hi)

theorem performEvents_singleton (e : Event) (s : State) : performEvents [e] s = performEvent e s := by
  rw [performEvents]
  cases performEvent e s <;> rfl

/-- `WR CMD` of a command's byte, in the big-step reading, is the command (R69, R113). -/
theorem performEvent_writeOf_cmd {s : State} {c : Nat} {i : Instr} {rest : List Byte} (hb : s.status.busy = false)
    (hr : s.params.reading = .bigStep) (hi : decode .cmd8 [BitVec.ofNat 8 c] = .instr i rest) :
    performEvent (writeOf .cmd c) s = exec i s := by
  change hostWrite (numberOfReg .cmd) (BitVec.ofNat 129 c) s = _
  rw [hostWrite_cmd _ hb, BitVec.setWidth_ofNat_of_le (by decide), presentByte_of_command hi,
    performCommand_of_bigStep i hr]

/-- The two length writes (R105). -/
theorem performEvents_writeLengths {s : State} (l m : Nat) (rest : List Event) (hb : s.status.busy = false) :
    performEvents (writeOf .dataLen l :: writeOf .outLen m :: rest) s = performEvents rest (setLengths l m s) := by
  have hdata := performEvent_writeOf (s := s) (g := .dataLen) l hb (by decide)
  have hout := performEvent_writeOf (s := writeReg s (BitVec.ofNat 129 l) .dataLen) (g := .outLen) m hb (by decide)
  rw [performEvents, hdata, andThen_next, performEvents, hout, andThen_next]
  simp only [writeReg, BitVec.setWidth_ofNat_of_le (show 65 ≤ 129 by decide)]
  rfl

/-- The state a successful ADDR leaves. -/
def addressed (s : State) (f : FrameRange) : State := finish (setFrameRegs f (accept s))

/-- The state in which R108 presents UNPACK: after ADDR, the frame's bytes in CHUNK and its lengths in the registers. -/
def staged (s : State) (f : FrameRange) (chunk : Memory 8) : State :=
  setLengths f.bytes f.pixels { addressed s f with chunk := chunk }

/-- With a frame's lengths UNPACK meets the kernel's precondition (R82), and it leaves the state of DECODE. -/
theorem execUnpack_staged {s : State} {f : FrameRange} {chunk : Memory 8} {out : Memory 16}
    (hf : frameRange s = .ok f) (hc : fits s.params.chunkCap f.bytes = true) (ho : fits s.params.outCap f.pixels = true)
    (hu : unpackRange chunk (f.bytes / 3) 0 s.out = some out) :
    exec .unpack (staged s f chunk) = .next (decoded s f chunk out) := by
  obtain ⟨hlt, -, hpixels, heven, hbytes, -⟩ := frameRange_bounds hf
  have hl : (staged s f chunk).dataLen.toNat = f.bytes := Nat.mod_eq_of_lt (by omega)
  have hm : (staged s f chunk).outLen.toNat = f.pixels := Nat.mod_eq_of_lt (by omega)
  refine execUnpack_of_ok (s := staged s f chunk) (out := out) rfl ?_ ?_ ?_ ?_
  · rwa [hl]
  · rwa [hm]
  · rw [hl, hm, kernelOk_iff]; omega
  · rwa [hl]

/-- R108 for a frame that passes its checks: each transaction's effect in turn. -/
theorem performEvents_addr_load_unpack {s : State} {f : FrameRange} {bytes : List Byte} (hb : s.status.busy = false)
    (hr : s.params.reading = .bigStep) (hf : frameRange s = .ok f) (hc : fits s.params.chunkCap f.bytes = true)
    (ho : fits s.params.outCap f.pixels = true) (hack : f.bytes ≠ 0 → s.srcAck = true) (hlen : bytes.length = f.bytes)
    (hsrc : ∀ j, j < f.bytes → Memory.read s.src (srcAddr f.offset j) = bytes[j]?) :
    performEvents
        ([writeOf .cmd 0x01] ++ chunkWritesFrom 0 bytes ++
          [writeOf .dataLen f.bytes, writeOf .outLen f.pixels, writeOf .cmd 0x02]) s =
      exec .decode s := by
  obtain ⟨chunk, out, hl, hu⟩ := load_unpack_of_source hf fun j hj => by
    rw [hsrc j hj, List.getElem?_eq_getElem (hlen ▸ hj)]; exact Option.some_ne_none _
  have hwritten : loadRange s.src f.offset bytes.length 0 s.chunk = some (Memory.writeFrom s.chunk 0 bytes) :=
    loadRange_eq_writeFrom bytes 0 s.chunk fun i hi => by rw [Nat.zero_add]; exact hsrc i (hlen ▸ hi)
  obtain rfl : Memory.writeFrom s.chunk 0 bytes = chunk := Option.some.inj (hwritten.symm.trans (hlen ▸ hl))
  obtain ⟨hlt, -, -, -, -, -⟩ := frameRange_bounds hf
  have haddr : performEvent (writeOf .cmd 0x01) s = .next (addressed s f) :=
    (performEvent_writeOf_cmd hb hr rfl).trans (execAddr_of_ok hb hf)
  have hchunk : performEvents (chunkWritesFrom 0 bytes) (addressed s f) =
      .next { addressed s f with chunk := Memory.writeFrom s.chunk 0 bytes } :=
    performEvents_chunkWritesFrom bytes rfl (by omega) (by rw [Nat.zero_add, hlen]; exact hc)
  have hunpack : performEvent (writeOf .cmd 0x02) (staged s f (Memory.writeFrom s.chunk 0 bytes)) =
      .next (decoded s f (Memory.writeFrom s.chunk 0 bytes) out) :=
    (performEvent_writeOf_cmd (s := staged s f _) rfl hr rfl).trans (execUnpack_staged hf hc ho hu)
  rw [performEvents_append, performEvents_append, performEvents_singleton, haddr, andThen_next, hchunk, andThen_next,
    performEvents_writeLengths _ _ _ rfl, performEvents_singleton, ← staged, hunpack,
    execDecode_of_load_unpack hb hf hc ho hack hl hu]

/-- The adder reports an error whenever one of its checks fails (R127). -/
theorem frameRange_eq_error {s : State}
    (h : s.bitDepth ≠ 12 ∨ pixelCount s % 2 = 1 ∨
      seekOf (frameBytes (pixelCount s)) s + frameBytes (pixelCount s) > s.srcLen.toNat) :
    ∃ e, frameRange s = .error e := by
  cases hf : frameRange s with
  | error e => exact ⟨e, rfl⟩
  | ok f =>
    obtain ⟨hd, heven, hrange, -⟩ := frameRange_eq_ok.1 hf
    obtain h | h | h := h
    · exact absurd hd h
    · omega
    · omega

/-- Settles O29: past the checks the transactions compose to DECODE; a failing check stops ADDR and DECODE alike. -/
theorem decodeIsAddrLoadUnpack : Obligations.DecodeIsAddrLoadUnpack := by
  rintro s n f o hn rfl rfl hb hr
  obtain rfl : n = pixelCount s := hn
  have haddr : performEvents [writeOf .cmd 0x01] s = exec .addr s :=
    (performEvents_singleton _ s).trans (performEvent_writeOf_cmd hb hr rfl)
  have hdecode : performEvents [writeOf .cmd 0x03] s = exec .decode s :=
    (performEvents_singleton _ s).trans (performEvent_writeOf_cmd hb hr rfl)
  refine ⟨fun bytes hd heven hrange hc ho hack hlen hsrc => ?_, fun hfail => ?_⟩
  · rw [hdecode]
    exact performEvents_addr_load_unpack hb hr (frameRange_eq_ok.2 ⟨hd, heven, hrange, rfl⟩) hc ho
      (fun h0 => hack.resolve_right h0) hlen hsrc
  · obtain ⟨e, he⟩ := frameRange_eq_error hfail
    obtain ⟨ha, hx⟩ := execFrame_of_error hb he
    rw [haddr, hdecode, ha, hx]

/-! ### What DECODE depends on -/

/-- The words DECODE leaves in OUT below the frame's length are a function of the frame's bytes (R107, R109). -/
theorem read_out_of_load_unpack_congr {src src' chunk chunk₁ chunk' chunk₁' : Memory 8} {out out₁ out' out₁' : Memory 16}
    {offset n k : Nat} (hl : loadRange src offset n 0 chunk = some chunk₁)
    (hu : unpackRange chunk₁ (n / 3) 0 out = some out₁) (hl' : loadRange src' offset n 0 chunk' = some chunk₁')
    (hu' : unpackRange chunk₁' (n / 3) 0 out' = some out₁')
    (hsrc : ∀ j, j < n → Memory.read src' (offset + j) = Memory.read src (offset + j)) (hk : k < 2 * (n / 3)) :
    Memory.read out₁' k = Memory.read out₁ k := by
  obtain ⟨b0, b1, b2, h0, h1, h2, hw⟩ := read_out_of_load_unpack hl hu hk
  obtain ⟨c0, c1, c2, g0, g1, g2, hw'⟩ := read_out_of_load_unpack hl' hu' hk
  rw [hsrc _ (by omega), h0] at g0
  rw [Nat.add_assoc, hsrc _ (by omega), ← Nat.add_assoc, h1] at g1
  rw [Nat.add_assoc, hsrc _ (by omega), ← Nat.add_assoc, h2] at g2
  cases g0; cases g1; cases g2
  rw [hw, hw']

/-- Two states agree on what DECODE reads (R109), and on what decides whether it is refused or waits. -/
structure DecodeInputsAgree (s t : State) : Prop where
  range : frameRange t = frameRange s
  source : ∀ f, frameRange s = .ok f → ∀ j, j < f.bytes →
    Memory.read t.src (srcAddr f.offset j) = Memory.read s.src (srcAddr f.offset j)
  srcAck : t.srcAck = s.srcAck
  chunkCap : t.params.chunkCap = s.params.chunkCap
  outCap : t.params.outCap = s.params.outCap

/-- From states that agree on its inputs DECODE takes the same branch. -/
theorem execDecode_next_of_agree {s t s' : State} (h : DecodeInputsAgree s t) (hb : s.status.busy = false)
    (hbt : t.status.busy = false) (hx : exec .decode s = .next s') :
    ∃ t', exec .decode t = .next t' ∧ statusByte t'.status = statusByte s'.status := by
  obtain ⟨hb', -⟩ | ⟨-, e, he, rfl⟩ | ⟨-, f, chunk, out, hf, hc, ho, hack, hl, -, rfl⟩ |
    ⟨-, f, hf, hc, ho, hpos, hack, rfl⟩ := execDecode_next hx
  · exact absurd hb' (by simp [hb])
  · exact ⟨_, (execFrame_of_error hbt (h.range.trans he)).2, rfl⟩
  · have hft : frameRange t = .ok f := h.range.trans hf
    obtain ⟨chunk', out', hl', hu'⟩ := load_unpack_of_source hft fun j hj => by
      rw [h.source f hf j hj]; exact loadRange_ne_none.1 (hl ▸ Option.some_ne_none _) j (Nat.zero_le j) (by omega)
    exact ⟨_, execDecode_of_load_unpack hbt hft (h.chunkCap ▸ hc) (h.outCap ▸ ho) (h.srcAck ▸ hack) hl' hu', rfl⟩
  · exact ⟨_, execDecode_of_silent hbt (h.range.trans hf) (h.chunkCap ▸ hc) (h.outCap ▸ ho) hpos
      (h.srcAck.trans hack), rfl⟩

/-- The CHUNK cells a load writes are a function of the frame's bytes. -/
theorem read_chunk_of_load_congr {src src' chunk chunk₁ chunk' chunk₁' : Memory 8} {offset n j : Nat}
    (hl : loadRange src offset n 0 chunk = some chunk₁) (hl' : loadRange src' offset n 0 chunk' = some chunk₁')
    (hsrc : ∀ j, j < n → Memory.read src' (offset + j) = Memory.read src (offset + j)) (hj : j < n) :
    Memory.read chunk₁' j = Memory.read chunk₁ j := by
  obtain ⟨hread, -, -⟩ := loadRange_spec hl
  obtain ⟨hread', -, -⟩ := loadRange_spec hl'
  rw [hread, hread', if_pos (by omega), if_pos (by omega)]
  exact hsrc j hj

/-- Settles O30: both DECODEs take the same branch, and where they succeed both load and unpack the same bytes. -/
theorem decodeDependsOnItsInputsAlone : Obligations.DecodeDependsOnItsInputsAlone := by
  rintro s t s' n f o hn rfl rfl hb hbt hd hrows hcols hindex hsl hack hcc hoc hsrc hx
  obtain rfl : n = pixelCount s := hn
  have hagree : DecodeInputsAgree s t :=
    { range := frameRange_congr hd hrows hcols hindex hsl
      source := fun f hf => by obtain ⟨-, -, -, rfl⟩ := frameRange_eq_ok.1 hf; exact hsrc
      srcAck := hack
      chunkCap := hcc
      outCap := hoc }
  obtain ⟨t', hx', hst⟩ := execDecode_next_of_agree hagree hb hbt hx
  refine ⟨t', hx', hst, fun hdone => ?_⟩
  obtain ⟨f, chunk, out, hf, hl, hu, rfl⟩ := execDecode_done hb hx hdone
  obtain ⟨f', chunk', out', hf', hl', hu', rfl⟩ := execDecode_done hbt hx' (hst.trans hdone)
  obtain rfl : f = f' := Except.ok.inj (hf.symm.trans (hagree.range.symm.trans hf'))
  obtain ⟨-, heven, -, rfl⟩ := frameRange_eq_ok.1 hf
  have htriplets : frameBytes (pixelCount s) / 3 = pixelCount s / 2 := frameBytes_div_three heven
  exact ⟨rfl, rfl, rfl, rfl, fun j hj => read_chunk_of_load_congr hl hl' hsrc hj,
    fun k hk => read_out_of_load_unpack_congr hl hu hl' hu' hsrc (by dsimp only; omega)⟩

/-! ### DECODE repeated -/

/-- A load repeated over its own result changes nothing. -/
theorem loadRange_idempotent {src chunk chunk' : Memory 8} {offset n j : Nat} (hw : Memory.wf chunk = true)
    (h : loadRange src offset n j chunk = some chunk') : loadRange src offset n j chunk' = some chunk' := by
  obtain ⟨hread, hdef, hwf⟩ := loadRange_spec h
  obtain ⟨chunk₂, h₂⟩ := Option.ne_none_iff_exists'.1 (loadRange_ne_none (chunk := chunk').2 hdef)
  obtain ⟨hread₂, -, hwf₂⟩ := loadRange_spec h₂
  have hsame : chunk₂ = chunk' := Memory.ext_of_wf (hwf₂ (hwf hw)) (hwf hw) fun a => by
    rw [hread₂, hread]; split_ifs <;> rfl
  rw [h₂, hsame]

/-- The kernel repeated over its own result changes nothing (R87). -/
theorem unpackRange_idempotent {chunk : Memory 8} {out out' : Memory 16} {n i : Nat} (hw : Memory.wf out = true)
    (h : unpackRange chunk n i out = some out') : unpackRange chunk n i out' = some out' := by
  obtain ⟨hread, hdef, hwf⟩ := unpackRange_spec h
  obtain ⟨out₂, h₂⟩ := Option.ne_none_iff_exists'.1 (unpackRange_ne_none (out := out').2 hdef)
  obtain ⟨hread₂, -, hwf₂⟩ := unpackRange_spec h₂
  have hsame : out₂ = out' := Memory.ext_of_wf (hwf₂ (hwf hw)) (hwf hw) fun k => by
    rw [hread₂, hread]; split_ifs <;> rfl
  rw [h₂, hsame]

/-- A command given while BUSY = 1 is dropped (R111; log 27). -/
theorem execDecode_of_busy {s : State} (hb : s.status.busy = true) : exec .decode s = .next s := by
  change execDecode s = _
  rw [execDecode, if_pos hb]

theorem raiseError_accept_raiseError (e : ErrorKind) (s : State) :
    raiseError e (accept (raiseError e (accept s))) = raiseError e (accept s) := by
  simp only [raiseError, accept]

theorem decoded_decoded (s : State) (f : FrameRange) (chunk : Memory 8) (out : Memory 16) :
    decoded (decoded s f chunk out) f chunk out = decoded s f chunk out := by
  simp only [decoded, finish, setLengths, setFrameRegs, accept, statusDone, statusAccepted, statusForgotten]

/-- Settles O31: a DECODE dropped or left waiting finds BUSY = 1 again, a failing one fails the same check again, and a
successful one loads and unpacks what is already there. -/
theorem decodeIsIdempotent : Obligations.DecodeIsIdempotent := by
  intro s t hwc hwo hx
  obtain ⟨hb, rfl⟩ | ⟨-, e, he, rfl⟩ | ⟨-, f, chunk, out, hf, hc, ho, hack, hl, hu, rfl⟩ | ⟨-, f, -, -, -, -, -, rfl⟩ :=
    execDecode_next hx
  · exact execDecode_of_busy hb
  · have hagain : frameRange (raiseError e (accept s)) = .error e := (frameRange_congr rfl rfl rfl rfl rfl).trans he
    rw [(execFrame_of_error rfl hagain).2, raiseError_accept_raiseError]
  · have hagain : frameRange (decoded s f chunk out) = .ok f := (frameRange_congr rfl rfl rfl rfl rfl).trans hf
    have hrun : exec .decode (decoded s f chunk out) = .next (decoded (decoded s f chunk out) f chunk out) :=
      execDecode_of_load_unpack rfl hagain hc ho hack (loadRange_idempotent hwc hl) (unpackRange_idempotent hwo hu)
    rw [hrun, decoded_decoded]
  · exact execDecode_of_busy rfl

/-! ### Errors -/

/-- `t` is `s` with an error taken: STATUS and an idle sequencer aside nothing differs (R129). -/
def ErrorTaken (s t : State) : Prop :=
  t = { s with status := t.status, seq := .idle } ∧ t.status.done = true ∧ t.status.busy = false

theorem errorTaken_raiseError (e : ErrorKind) (s : State) : ErrorTaken s (raiseError e (accept s)) := ⟨rfl, rfl, rfl⟩

/-- Settles O34: of what a command can do, only `raiseError` and leaving the state alone end with ERR = 1. -/
theorem errorsChangeNothingButStatus : Obligations.ErrorsChangeNothingButStatus := by
  intro i s t hcmd hx herr
  change t = s ∨ ErrorTaken s t
  cases i with
  | nop => cases hx; exact .inl rfl
  | addr =>
    obtain ⟨-, rfl⟩ | ⟨-, e, -, rfl⟩ | ⟨-, f, -, rfl⟩ := execAddr_next hx
    · exact .inl rfl
    · exact .inr (errorTaken_raiseError e s)
    · cases herr
  | unpack =>
    obtain ⟨-, rfl⟩ | ⟨-, -, rfl⟩ | ⟨-, -, -, -, out, -, rfl⟩ := execUnpack_next hx
    · exact .inl rfl
    · exact .inr (errorTaken_raiseError .precondition s)
    · cases herr
  | decode =>
    obtain ⟨-, rfl⟩ | ⟨-, e, -, rfl⟩ | ⟨-, f, chunk, out, -, -, -, -, -, -, rfl⟩ | ⟨-, f, -, -, -, -, -, rfl⟩ :=
      execDecode_next hx
    · exact .inl rfl
    · exact .inr (errorTaken_raiseError e s)
    · cases herr
    · cases herr
  | clear =>
    obtain ⟨-, rfl⟩ | ⟨-, rfl⟩ := execClear_next hx
    · exact .inl rfl
    · cases herr
  | triplet even odd => cases hcmd

end Sys2Proof.Machine

namespace Sys2Proof.Machine

/-! ## Commands and control -/

/-! ### NOP, CLEAR and dropped commands -/

/-- Settles O9. -/
theorem nopChangesNothing : Obligations.NopChangesNothing := ⟨rfl, fun _ => rfl⟩

/-- CLEAR on an idle block forgets the outcome (R118). -/
theorem execClear_of_idle {s : State} (hb : s.status.busy = false) : exec .clear s = .next (forgetOutcome s) := by
  change execClear s = _
  rw [execClear, hb, if_neg Bool.false_ne_true]

/-- A command given to a busy block is dropped (R111; log 27). -/
theorem exec_of_busy {i : Instr} {s : State} (hi : i.format = .cmd8) (hb : s.status.busy = true) :
    exec i s = .next s := by
  cases i with
  | nop => rfl
  | addr => change execAddr s = _; rw [execAddr, if_pos hb]
  | unpack => change execUnpack s = _; rw [execUnpack, if_pos hb]
  | decode => exact execDecode_of_busy hb
  | clear => change execClear s = _; rw [execClear, if_pos hb]
  | triplet even odd => cases hi

/-- So is one that would have to be started (R111). -/
theorem startCommand_of_busy {i : Instr} {s : State} (hi : i.format = .cmd8) (hb : s.status.busy = true) :
    startCommand i s = .next s := by
  cases i with
  | nop => rfl
  | addr => exact exec_of_busy hi hb
  | unpack => change startUnpack s = _; rw [startUnpack, if_pos hb]
  | decode => change startDecode s = _; rw [startDecode, if_pos hb]
  | clear => exact exec_of_busy hi hb
  | triplet even odd => cases hi

/-- Settles O10. -/
theorem clearForgetsTheOutcome : Obligations.ClearForgetsTheOutcome :=
  ⟨rfl, fun s =>
    ⟨fun hb => ⟨_, execClear_of_idle hb, statusByte_forgotten s.status hb, hb, rfl, rfl, rfl, rfl⟩, exec_of_busy rfl⟩⟩

/-- Settles O11. -/
theorem commandsAreDroppedWhileBusy : Obligations.CommandsAreDroppedWhileBusy :=
  fun _ _ hi hb => ⟨exec_of_busy hi hb, startCommand_of_busy hi hb⟩

/-! ### Reserved command bytes -/

/-- A reserved byte presented to an idle block is IllegalCommand (R119). -/
theorem presentByte_of_reserved {c : Byte} (s : State) (hc : 0x05 ≤ c.toNat) :
    presentByte c s = .next (raiseError .illegalCommand (forgetOutcome s)) := by
  have hdecode : decode .cmd8 [c] = .reject (.reservedCommand c) := (reservedCommandBytesAreRejected c []).2 hc
  simp only [presentByte, hdecode]

/-- Settles O50: an idle block is presented the byte `v[7:0]`, a busy one drops the write. -/
theorem stepReportsIllegalCommands : Obligations.StepReportsIllegalCommands := by
  intro s v tail ha hv
  have hstep : step s = hostWrite (numberOfReg .cmd) v { s with agenda := tail } := step_of_agenda ha
  have hbyte : 0x05 ≤ (v.setWidth 8).toNat := by rwa [BitVec.toNat_setWidth]
  have hidle (hb : s.status.busy = false) :
      step s = .next (raiseError .illegalCommand (forgetOutcome { s with agenda := tail })) :=
    calc step s = hostWrite (numberOfReg .cmd) v { s with agenda := tail } := hstep
      _ = presentByte (v.setWidth 8) { s with agenda := tail } := hostWrite_cmd v hb
      _ = _ := presentByte_of_reserved _ hbyte
  exact ⟨fun hb => ⟨_, hidle hb, statusByte_error .illegalCommand, rfl⟩,
    fun hb => hstep.trans (hostWrite_of_busy _ v hb)⟩

/-! ### Outcomes that further micro-steps leave alone -/

/-- A state that one move leaves as it is stays so through any number of moves. -/
theorem runTicks_of_advance_self (k : Nat) {s : State} (h : advance s = .next s) : runTicks k s = .next s := by
  induction k with
  | zero => rfl
  | succ k ih => rw [runTicks, h, andThen_next, ih]

/-- A load whose source does not answer waits (R149; log 8). -/
theorem advance_of_silent {s : State} {r : Running} (hs : s.seq = .load r) (ha : s.srcAck = false) :
    advance s = .next s := by
  simp only [advance, hs, loadStep, ha, Bool.false_eq_true, if_false]

/-- An outcome whose state the sequencer leaves alone is not changed by running on. -/
theorem andThen_runTicks_of_advance_self (k : Nat) {o : Outcome} (h : ∀ t, o = .next t → advance t = .next t) :
    andThen o (runTicks k) = o := by
  cases o with
  | next t => exact runTicks_of_advance_self k (h t rfl)
  | fault r => rfl
  | refused r => rfl

/-- UNPACK whole leaves the block idle. -/
theorem advance_of_execUnpack {s t : State} (hb : s.status.busy = false) (hx : exec .unpack s = .next t) :
    advance t = .next t := by
  obtain ⟨hb', -⟩ | ⟨-, -, rfl⟩ | ⟨-, -, -, -, out, -, rfl⟩ := execUnpack_next hx
  · rw [hb] at hb'; cases hb'
  · exact advance_idle rfl
  · exact advance_idle rfl

/-- DECODE whole leaves the block idle, or waiting on a silent source (log 28). -/
theorem advance_of_execDecode {s t : State} (hb : s.status.busy = false) (hx : exec .decode s = .next t) :
    advance t = .next t := by
  obtain ⟨hb', -⟩ | ⟨-, e, -, rfl⟩ | ⟨-, f, chunk, out, -, -, -, -, -, -, rfl⟩ | ⟨-, f, -, -, -, -, ha, rfl⟩ :=
    execDecode_next hx
  · rw [hb] at hb'; cases hb'
  · exact advance_idle rfl
  · exact advance_idle rfl
  · exact advance_of_silent (enterLoad_seq f s) ha

/-! ### UNPACK by micro-steps -/

/-- UNPACK's checks pass and there is a triplet to take, so that starting it enters RUN. -/
def StartsKernel (s : State) : Prop :=
  fits s.params.chunkCap s.dataLen.toNat = true ∧ fits s.params.outCap s.outLen.toNat = true ∧
    kernelOk s.dataLen.toNat s.outLen.toNat = true ∧ s.dataLen.toNat / 3 ≠ 0

/-- The state the acceptance of an UNPACK leaves then: the latches and PHASE = RUN (R115). -/
def unpackStarted (s : State) : State :=
  { accept s with
    seq := .run
      { op := .unpack, fbsL := 0, seekL := 0, nL := s.dataLen.toNat / 3, mL := s.outLen.toNat,
        lj := 0, ti := 0, laneRegs := [], before := beforeOf s } }

theorem startUnpack_of_startsKernel {s : State} (hb : s.status.busy = false) (h : StartsKernel s) :
    startUnpack s = .next (unpackStarted s) := by
  obtain ⟨hc, ho, hk, hn⟩ := h
  simp [startUnpack, hb, hc, ho, hk, hn, unpackStarted]

/-- Where no kernel starts, starting UNPACK is already the whole of it. -/
theorem startUnpack_eq_exec {s : State} (h : ¬StartsKernel s) : startUnpack s = exec .unpack s := by
  change _ = execUnpack s
  simp only [startUnpack, execUnpack]
  split_ifs with hb hc ho hk hn
  · rfl
  · rfl
  · rfl
  · rfl
  · simp only [hn, unpackRange]; rfl
  · exact absurd ⟨by simpa using hc, by simpa using ho, by simpa using hk, hn⟩ h

/-- UNPACK whole, where the kernel would read an undefined cell (R37, R90). -/
theorem execUnpack_of_undefined {s : State} (hb : s.status.busy = false)
    (hc : fits s.params.chunkCap s.dataLen.toNat = true) (ho : fits s.params.outCap s.outLen.toNat = true)
    (hk : kernelOk s.dataLen.toNat s.outLen.toNat = true)
    (hu : unpackRange s.chunk (s.dataLen.toNat / 3) 0 s.out = none) :
    exec .unpack s = .refused .undefinedChunkCell := by
  change execUnpack s = _
  simp [execUnpack, hb, hc, ho, hk, hu]

/-- A kernel that starts ends, after enough moves, with the outcome of the whole command. -/
theorem runTicks_unpackStarted {s : State} {k : Nat} (hb : s.status.busy = false) (hl : 1 ≤ s.params.lanes)
    (h : StartsKernel s) (hk : s.dataLen.toNat / 3 ≤ k) : runTicks k (unpackStarted s) = exec .unpack s := by
  obtain ⟨hc, ho, hok, hn⟩ := h
  rw [runTicks_run k (s := unpackStarted s) rfl hl (Nat.pos_of_ne_zero hn) hk]
  split
  next hu => exact (execUnpack_of_undefined hb hc ho hok hu).symm
  next out hu => exact (execUnpack_of_ok hb hc ho hok hu).symm

/-- Settles O54: either the start is the whole command, or the kernel runs through its triplets as the loop does. -/
theorem microStepsOfUnpackReachTheBigStep : Obligations.MicroStepsOfUnpackReachTheBigStep := by
  intro s k hb hp hk
  change andThen (startUnpack s) (runTicks k) = exec .unpack s
  by_cases h : StartsKernel s
  · rw [startUnpack_of_startsKernel hb h]
    exact runTicks_unpackStarted hb (of_decide_eq_true hp) h hk
  · rw [startUnpack_eq_exec h]
    exact andThen_runTicks_of_advance_self k fun t => advance_of_execUnpack hb

/-! ### DECODE by micro-steps -/

/-- DECODE's checks pass with frame `f`, which has bytes, and the source answers, so that starting it enters a LOAD that
moves. -/
def StartsLoad (s : State) (f : FrameRange) : Prop :=
  frameRange s = .ok f ∧ fits s.params.chunkCap f.bytes = true ∧ fits s.params.outCap f.pixels = true ∧
    f.bytes ≠ 0 ∧ s.srcAck = true

theorem startDecode_of_startsLoad {s : State} {f : FrameRange} (hb : s.status.busy = false) (h : StartsLoad s f) :
    startDecode s = .next (enterLoad f s) := by
  obtain ⟨hf, hc, ho, hn, -⟩ := h
  simp [startDecode, hb, hf, hc, ho, hn]

/-- Where no load moves, starting DECODE is already the whole of it: an error, a refusal, an empty frame or a waiting load. -/
theorem startDecode_eq_exec {s : State} (h : ∀ f, ¬StartsLoad s f) : startDecode s = exec .decode s := by
  change _ = execDecode s
  simp only [startDecode, execDecode]
  split_ifs with hb
  · rfl
  · cases hf : frameRange s with
    | error e => rfl
    | ok f =>
      simp only
      split_ifs with hc ho hn hsilent hsilent
      · rfl
      · rfl
      · exact absurd hn hsilent.1
      · simp only [hn, loadRange, Nat.zero_div, unpackRange]; rfl
      · rfl
      · exact absurd ⟨hf, by simpa using hc, by simpa using ho, hn, by simpa [hn] using hsilent⟩ (h f)

/-- One move of LOAD by a source that holds the byte requested: the byte is stored, and the last one enters RUN. -/
theorem advance_load_of_read {s : State} {r : Running} {b : Byte} (hs : s.seq = .load r) (ha : s.srcAck = true)
    (hread : Memory.read s.src (srcAddr r.seekL r.lj) = some b) :
    advance s =
      if r.lj + 1 = r.fbsL then
        .next
          (setLengths r.fbsL r.mL
            { s with chunk := s.chunk.write r.lj b, seq := .run { r with lj := r.lj + 1, ti := 0 } })
      else .next { s with chunk := s.chunk.write r.lj b, seq := .load { r with lj := r.lj + 1 } } := by
  rw [loadStep_spec hs ha]
  simp only [hread]

/-- A load that moves ends, after enough moves, with the outcome of the whole command. -/
theorem runTicks_enterLoad {s : State} {f : FrameRange} {k : Nat} (hb : s.status.busy = false)
    (hl : 1 ≤ s.params.lanes) (h : StartsLoad s f)
    (hk : frameBytes (pixelCount s) + frameBytes (pixelCount s) / 3 ≤ k) :
    runTicks k (enterLoad f s) = exec .decode s := by
  obtain ⟨hf, hc, ho, hn, ha⟩ := h
  obtain ⟨-, -, -, rfl⟩ := frameRange_eq_ok.1 hf
  obtain ⟨-, -, -, -, hbytes, -⟩ := frameRange_bounds hf
  dsimp only at hbytes hn
  rw [execDecode_of_ok hb hf hc ho fun _ => ha,
    runTicks_load k (enterLoad_seq _ s) ha hl (Nat.pos_of_ne_zero hn) (by dsimp only; omega) hk]
  rfl

/-- Settles O55: a move of LOAD stores its byte; and either the start is the whole command, or load and kernel run through
the frame as their loops do. -/
theorem microStepsOfDecodeReachTheBigStep : Obligations.MicroStepsOfDecodeReachTheBigStep := by
  constructor
  · intro s r b hs ha hread
    have hmove := advance_load_of_read hs ha hread
    have hsame : Memory.read (s.chunk.write r.lj b) r.lj = some b := Memory.read_write_same s.chunk r.lj b
    have hother : ∀ j, j ≠ r.lj → Memory.read (s.chunk.write r.lj b) j = Memory.read s.chunk j :=
      fun j => Memory.read_write_other s.chunk b
    by_cases hend : r.lj + 1 = r.fbsL
    · rw [if_pos hend] at hmove
      exact ⟨_, hmove, hsame, hother, fun h => absurd hend h, fun _ => rfl⟩
    · rw [if_neg hend] at hmove
      exact ⟨_, hmove, hsame, hother, fun _ => rfl, fun h => absurd h hend⟩
  · rintro s n f k rfl rfl hb hp hk
    change andThen (startDecode s) (runTicks k) = exec .decode s
    by_cases h : ∃ f, StartsLoad s f
    · obtain ⟨f, h⟩ := h
      rw [startDecode_of_startsLoad hb h]
      exact runTicks_enterLoad hb (of_decide_eq_true hp) h hk
    · rw [startDecode_eq_exec (not_exists.1 h)]
      exact andThen_runTicks_of_advance_self k fun t => advance_of_execDecode hb

end Sys2Proof.Machine

namespace Sys2Proof.Machine

/-! ## Exceptions -/

/-! ### The first failing check -/

/-- An error `e` of the adder is the whole outcome of ADDR and of DECODE: STATUS reports it, nothing else changes (R129). -/
theorem execFrame_reports {i : Instr} {s : State} {e : ErrorKind} (hi : i = .addr ∨ i = .decode)
    (hb : s.status.busy = false) (he : frameRange s = .error e) :
    ∃ t, exec i s = .next t ∧ statusByte t.status = statusByte (statusError e) ∧
      t = { s with status := t.status, seq := .idle } := by
  obtain ⟨haddr, hdecode⟩ := execFrame_of_error hb he
  obtain rfl | rfl := hi
  · exact ⟨_, haddr, rfl, rfl⟩
  · exact ⟨_, hdecode, rfl, rfl⟩

/-- Settles O13: the adder's checks come in the order format, evenness, range, and its error is the command's. -/
theorem frameCommandsReportTheFirstFailingCheck : Obligations.FrameCommandsReportTheFirstFailingCheck := by
  rintro i s n f o hi rfl rfl rfl hb
  refine ⟨fun hd => ?_, fun hd hodd => ?_, fun hd heven hrange => ?_⟩
  · exact execFrame_reports hi hb (frameRange_unsupported hd)
  · exact execFrame_reports hi hb (frameRange_odd hd hodd)
  · exact execFrame_reports hi hb (frameRange_short hd heven hrange)

/-! ### Which command raises which error -/

/-- The adder does not raise the error of the reserved command bytes (R126). -/
theorem frameRange_ne_illegalCommand (s : State) : frameRange s ≠ .error .illegalCommand := by
  unfold frameRange
  split_ifs <;> simp

/-- The codes of the adder's three errors (R122 to R124). -/
theorem errorCode_mem_of_frameRange {s : State} {e : ErrorKind} (h : frameRange s = .error e) :
    errorCode e ∈ [0, 1, 2, 3] := by
  cases e with
  | precondition => decide
  | shortRead => decide
  | unsupportedFormat => decide
  | illegalCommand => exact absurd h (frameRange_ne_illegalCommand s)

/-- ADDR from an idle block ends with an error of the adder or with none. -/
theorem errCode_of_execAddr {s t : State} (hb : s.status.busy = false) (hx : exec .addr s = .next t) :
    t.status.errCode ∈ [0, 1, 2, 3] := by
  obtain ⟨hb', -⟩ | ⟨-, e, he, rfl⟩ | ⟨-, f, -, rfl⟩ := execAddr_next hx
  · exact absurd hb' (by simp [hb])
  · exact errorCode_mem_of_frameRange he
  · exact List.mem_cons_self

/-- UNPACK from an idle block ends with an error of its lengths or with none. -/
theorem errCode_of_execUnpack {s t : State} (hb : s.status.busy = false) (hx : exec .unpack s = .next t) :
    t.status.errCode ∈ [0, 1] := by
  obtain ⟨hb', -⟩ | ⟨-, -, rfl⟩ | ⟨-, -, -, -, out, -, rfl⟩ := execUnpack_next hx
  · exact absurd hb' (by simp [hb])
  · exact List.mem_cons_of_mem _ List.mem_cons_self
  · exact List.mem_cons_self

/-- DECODE from an idle block ends with an error of the adder or with none; left waiting on a silent source it has none. -/
theorem errCode_of_execDecode {s t : State} (hb : s.status.busy = false) (hx : exec .decode s = .next t) :
    t.status.errCode ∈ [0, 1, 2, 3] := by
  obtain ⟨hb', -⟩ | ⟨-, e, he, rfl⟩ | ⟨-, f, chunk, out, -, -, -, -, -, -, rfl⟩ | ⟨-, f, -, -, -, -, -, rfl⟩ :=
    execDecode_next hx
  · exact absurd hb' (by simp [hb])
  · exact errorCode_mem_of_frameRange he
  · exact List.mem_cons_self
  · exact List.mem_cons_self

/-- Settles O35, a command at a time. -/
theorem commandsRaiseOnlyTheirErrors : Obligations.CommandsRaiseOnlyTheirErrors := by
  intro s t hb
  refine ⟨fun hx => ?_, errCode_of_execAddr hb, errCode_of_execUnpack hb, errCode_of_execDecode hb, fun hx => ?_,
    fun c hc => ⟨_, presentByte_of_reserved s hc, rfl⟩⟩
  · cases hx; rfl
  · rw [execClear_of_idle hb] at hx
    cases hx; rfl

/-! ### Waiting -/

/-- Settles O52: with no agenda entry the step is a move of the sequencer, and an idle one stays where it is. -/
theorem idleBlockWaits : Obligations.IdleBlockWaits :=
  fun _ ha hs => (step_of_no_agenda ha).trans (advance_idle hs)

end Sys2Proof.Machine

namespace Sys2Proof.Machine

/-! ## Reset and hazards -/

/-! ### Writes while busy -/

/-- Settles O41: both write ports drop what they are given while BUSY = 1. -/
theorem hostWritesAreDroppedWhileBusy : Obligations.HostWritesAreDroppedWhileBusy :=
  fun _ r v _ _ hb => ⟨hostWrite_of_busy r v hb, chunkWrite_of_busy _ _ hb⟩

/-! ### The reset event -/

/-- After the reset event every register but SRC_LEN, which only mirrors an input port, is as at power-on (R42, R139). -/
theorem readReg_applyReset (s : State) {g : Reg} (hg : g ≠ .srcLen) :
    readReg (applyReset s) g = readReg State.reset g := by
  cases g with
  | srcLen => exact absurd rfl hg
  | _ => rfl

theorem statusByte_applyReset (s : State) : statusByte (applyReset s).status = 0x00 := by
  obtain ⟨-, -, hstatus, -⟩ := resetClearsEveryRegister
  exact hstatus

/-- Settles O48: the event puts the block where it is at power-on, which is O47, and leaves its inputs alone. -/
theorem resetEventAbandonsTheCommand : Obligations.ResetEventAbandonsTheCommand := by
  intro s
  obtain ⟨-, hregs, -, hseq, hchunk, hout⟩ := resetClearsEveryRegister
  exact ⟨applyReset s, rfl, fun g hg => (readReg_applyReset s hg).trans (hregs g hg), hseq, hchunk, hout,
    rfl, rfl, rfl, rfl, rfl, rfl⟩

/-! ### DECODE on a silent source -/

/-- While a command runs STATUS is 0x01 (R111). -/
theorem statusByte_accepted (st : Status) : statusByte (statusAccepted st) = 0x01 := by
  simp [statusByte]

/-- The registers the acceptance of a DECODE writes hold the frame unwrapped (R98, R115). -/
theorem enterLoad_regs_toNat {s : State} {f : FrameRange} (hf : frameRange s = .ok f) :
    (enterLoad f s).frameByteSize.toNat = f.bytes ∧ (enterLoad f s).seekOffset.toNat = f.offset := by
  obtain ⟨hbytes, hoffset, -⟩ := frameRange_bounds hf
  exact ⟨Nat.mod_eq_of_lt (by omega), Nat.mod_eq_of_lt (by omega)⟩

/-- A DECODE accepted on a silent source stays where its acceptance left it (R149; log 8). -/
theorem advance_enterLoad_of_silent {s : State} (f : FrameRange) (ha : s.srcAck = false) :
    advance (enterLoad f s) = .next (enterLoad f s) :=
  advance_of_silent (enterLoad_seq f s) ha

/-- Settles O32: the command is left in `enterLoad`, where a move does nothing. A source that answers from then on finds the
block as the acceptance by an answering source leaves it, from where the micro-steps reach the big step. -/
theorem decodeWaitsOnASilentSource : Obligations.DecodeWaitsOnASilentSource := by
  rintro s n f o hn rfl rfl hb hd heven hrange hc ho hpos hsilent
  obtain rfl : n = pixelCount s := hn
  have hf : frameRange s = .ok ⟨pixelCount s, frameBytes (pixelCount s), seekOf (frameBytes (pixelCount s)) s⟩ :=
    frameRange_eq_ok.2 ⟨hd, heven, hrange, rfl⟩
  obtain ⟨hsize, hseek⟩ := enterLoad_regs_toNat hf
  have hstarts : StartsLoad { s with srcAck := true } _ := ⟨hf, hc, ho, hpos.ne', rfl⟩
  refine ⟨_, _, execDecode_of_silent hb hf hc ho hpos.ne' hsilent, statusByte_accepted s.status, hsize, hseek,
    enterLoad_seq _ s, rfl, rfl, rfl, rfl, rfl, rfl, rfl,
    fun k => runTicks_of_advance_self k (advance_enterLoad_of_silent _ hsilent),
    ⟨_, rfl, rfl, statusByte_applyReset _⟩, fun k hp hk => ?_⟩
  exact runTicks_enterLoad (s := { s with srcAck := true }) hb (of_decide_eq_true hp) hstarts hk

/-! ### Every running command ends -/

/-- A command that ends while it runs ends with STATUS = 0x02: the invariant has it forget the previous outcome (R112). -/
theorem statusByte_done_of_busy {st : Status} (h : StatusInv st) (hb : st.busy = true) :
    statusByte (statusDone st) = 0x02 := by
  obtain ⟨-, -, hbusy, -⟩ := h
  obtain ⟨-, herr, hcode⟩ := hbusy hb
  simp [statusByte, herr, hcode]

/-- A kernel whose CHUNK cells are all defined runs through its triplets (R37, R83). -/
theorem exists_unpackRange {chunk : Memory 8} {n i : Nat} (out : Memory 16)
    (h : ∀ j, 3 * i ≤ j → j < 3 * (i + n) → Memory.read chunk j ≠ none) :
    ∃ out', unpackRange chunk n i out = some out' :=
  Option.ne_none_iff_exists'.1 (unpackRange_ne_none.2 (tripletsDefined_iff.2 h))

section Ends
variable {s : State} {r : Running} {k : Nat}

/-- A load whose bytes the source holds runs through, and with the bytes copied before it defines every cell of the frame
(R49, R104). -/
theorem loadRange_of_supplied (hs : s.seq = .load r) (hsup : Supplied s) (hlj : r.lj ≤ r.fbsL)
    (hcopied : Copied s r r.lj) :
    ∃ chunk, loadRange s.src r.seekL (r.fbsL - r.lj) r.lj s.chunk = some chunk ∧
      ∀ j, j < r.fbsL → Memory.read chunk j ≠ none := by
  have hbytes : ∀ j, r.lj ≤ j → j < r.fbsL → Memory.read s.src (srcAddr r.seekL j) ≠ none := by
    simpa only [Supplied, hs] using hsup
  obtain ⟨chunk, hl⟩ := Option.ne_none_iff_exists'.1
    (loadRange_ne_none (n := r.fbsL - r.lj) (chunk := s.chunk).2 fun j hge hlt => hbytes j hge (by omega))
  obtain ⟨hread, -, -⟩ := loadRange_spec hl
  refine ⟨chunk, hl, fun j hj => ?_⟩
  rw [hread j]
  split_ifs with hnew
  · exact hbytes j hnew.1 hj
  · exact (hcopied j (by omega)).2

/-- From RUN a kernel that has its data ends, whether or not the source answers. -/
theorem runTicks_run_ends (h : s.Inv) (hs : s.seq = .run r) (hsup : Supplied s) (hk : r.nL - r.ti ≤ k) :
    ∃ t, runTicks k s = .next t ∧ t.seq = .idle ∧ statusByte t.status = 0x02 := by
  obtain ⟨hp, hst, -, hb, -, hti, -⟩ := (inv_run_iff hs).1 h
  have hcells : ∀ j, 3 * r.ti ≤ j → j < 3 * r.nL → Memory.read s.chunk j ≠ none := by
    simpa only [Supplied, hs] using hsup
  obtain ⟨out, hu⟩ := exists_unpackRange (n := r.nL - r.ti) s.out fun j hge hlt => hcells j hge (by omega)
  refine ⟨finish { s with out := out }, ?_, rfl, statusByte_done_of_busy hst hb⟩
  rw [runTicks_run k hs (of_decide_eq_true hp) hti hk, hu]

/-- From LOAD a command ends if its source answers and holds the bytes still to load: the kernel then has its data. -/
theorem runTicks_load_ends (h : s.Inv) (hs : s.seq = .load r) (ha : s.srcAck = true) (hsup : Supplied s)
    (hk : r.fbsL - r.lj + r.nL ≤ k) :
    ∃ t, runTicks k s = .next t ∧ t.seq = .idle ∧ statusByte t.status = 0x02 := by
  obtain ⟨hp, hst, -, hb, hlatch, hframe, hlj, -, -, hcopied, -⟩ := (inv_load_iff hs).1 h
  obtain ⟨hpos, -⟩ := hlatch
  obtain ⟨-, hbytes, -⟩ := hframe
  obtain ⟨chunk, hl, hcells⟩ := loadRange_of_supplied hs hsup hlj.le hcopied
  obtain ⟨out, hu⟩ := exists_unpackRange (n := r.nL) (i := 0) s.out fun j _ hlt => hcells j (by omega)
  refine ⟨finish (setLengths r.fbsL r.mL { s with chunk := chunk, out := out }), ?_, rfl,
    statusByte_done_of_busy hst hb⟩
  rw [runTicks_load k hs ha (of_decide_eq_true hp) hlj hpos hk, hl]
  simp only [hu]

end Ends

/-- Settles O56, by the phase of the sequencer. -/
theorem everyRunningCommandEnds : Obligations.EveryRunningCommandEnds := by
  refine ⟨fun s k h ha hsup hrun hk => ?_, fun s r k h hs ha => ?_, fun s r k h hs hsup hk => ?_⟩
  · cases hs : s.seq with
    | idle => exact absurd hs hrun
    | load r => exact runTicks_load_ends h hs ha hsup (by simpa only [remainingMoves, hs] using hk)
    | run r => exact runTicks_run_ends h hs hsup (by simpa only [remainingMoves, hs] using hk)
  · obtain ⟨-, -, -, hb, -⟩ := (inv_load_iff hs).1 h
    exact ⟨runTicks_of_advance_self k (advance_of_silent hs ha), hb⟩
  · exact runTicks_run_ends h hs hsup hk

end Sys2Proof.Machine
